-- ==== Sys2Proof/Word.lean ====
section
/-! DEFINITION. The word types of HSLPIX (spec/00_scope.md R7, R8). -/

namespace Sys2Proof

/-- One byte of the pixel buffer, one channel, one 8-bit field (R7). -/
abbrev Byte := BitVec 8

/-- A command word, 64 bits, bit 63 most significant (R60). -/
abbrev CmdWord := BitVec 64

/-- A Color: red in bits 23:16, green in bits 15:8, blue in bits 7:0 (R7, R100). -/
abbrev Color := BitVec 24

end Sys2Proof
end

