-- ==== Sys2Proof/Syntax.lean ====
section
/-! DEFINITION. The commands of HSLPIX with their fields (spec/30_encoding.md R62, R63, R66): one constructor
per row of spec/opcode_table.json, the fields in the order of the format, most significant first. -/

namespace Sys2Proof

/-- A command. Every field has the width of R63, so that a value outside it cannot be presented (R64); OFF, the one
signed field, is the integer R63 reads from it, and `Instr.wellFormed` gives its range. -/
inductive Instr where
  /-- NOP, format Z. -/
  | nop
  /-- INIT PIN, COUNT, format I. -/
  | init (pin : BitVec 8) (count : BitVec 16)
  /-- SETBRT VAL, format B. -/
  | setbrt (val : BitVec 8)
  /-- SETSEL SEL, COLOR, format S. -/
  | setsel (sel : BitVec 32) (color : Color)
  /-- SETRNG FROM, TO, COLOR, format R. -/
  | setrng (first last : BitVec 16) (color : Color)
  /-- SETALL COLOR, format C. -/
  | setall (color : Color)
  /-- CLEAR, format Z. -/
  | clear
  /-- SHIFT OFF, format O. -/
  | shift (off : Int)
  /-- ROTATE OFF, format O. -/
  | rotate (off : Int)
  /-- GRAD START, END, HUE1, HUE2, format G. -/
  | grad (start stop : BitVec 16) (hue1 hue2 : BitVec 12)
  /-- PACK R, G, B, format P. -/
  | pack (r g b : BitVec 8)
  /-- SCALE COLOR, format C. -/
  | scale (color : Color)
  /-- HSL2RGB HUE, SAT, LUM, format H. -/
  | hsl2rgb (hue : BitVec 12) (sat lum : BitVec 8)
  /-- ENCRNG FROM, TO8, format E. -/
  | encrng (first : BitVec 16) (last8 : BitVec 8)
  /-- RDCFG REG, format B. -/
  | rdcfg (reg : BitVec 8)
  /-- RDLED IDX, format X. -/
  | rdled (idx : BitVec 16)
  /-- RDBUF ADDR, format A. -/
  | rdbuf (addr : BitVec 24)
  deriving DecidableEq, Repr

/-- The opcode map's names (R66). -/
inductive Opcode where
  | nop | init | setbrt | setsel | setrng | setall | clear | shift | rotate | grad
  | pack | scale | hsl2rgb | encrng | rdcfg | rdled | rdbuf
  deriving DecidableEq, Repr

/-- The row of the opcode map a command belongs to. -/
def Instr.opcode : Instr → Opcode
  | .nop => .nop
  | .init _ _ => .init
  | .setbrt _ => .setbrt
  | .setsel _ _ => .setsel
  | .setrng _ _ _ => .setrng
  | .setall _ => .setall
  | .clear => .clear
  | .shift _ => .shift
  | .rotate _ => .rotate
  | .grad _ _ _ _ => .grad
  | .pack _ _ _ => .pack
  | .scale _ => .scale
  | .hsl2rgb _ _ _ => .hsl2rgb
  | .encrng _ _ => .encrng
  | .rdcfg _ => .rdcfg
  | .rdled _ => .rdled
  | .rdbuf _ => .rdbuf

end Sys2Proof
end

