-- ==== Sys2Proof/WellFormed.lean ====
section
/-! DEFINITION. Which commands a command word can carry (spec/30_encoding.md R63, R64). -/

namespace Sys2Proof

/-- OFF is a two's complement value of 16 bits: −32768 to 32767 (R63). -/
def offInRange (off : Int) : Bool := decide (-32768 ≤ off) && decide (off ≤ 32767)

/-- A command is well formed when each field holds a value its slice of the word can hold (R63, R64). The unsigned
fields hold only such values by their types; the two OFF fields are checked. -/
def Instr.wellFormed : Instr → Bool
  | .shift off => offInRange off
  | .rotate off => offInRange off
  | .nop | .init _ _ | .setbrt _ | .setsel _ _ | .setrng _ _ _ | .setall _ | .clear | .grad _ _ _ _ | .pack _ _ _
  | .scale _ | .hsl2rgb _ _ _ | .encrng _ _ | .rdcfg _ | .rdled _ | .rdbuf _ => true

end Sys2Proof
end

