-- ==== Sys2Proof/Decode.lean ====
section
/-! DEFINITION. The decoder of command words and, after it, the encoder (spec/30_encoding.md R60 to R69). -/

namespace Sys2Proof

/-- Why a word is no command (R61): its opcode is in no row of the map (R67), or a bit its format reserves is 1 (R68). -/
inductive DecodeError where
  | reservedOpcode
  | reservedBits
  deriving DecidableEq, Repr

/-- The opcode map of R66: the row that OP = W[63:56] names, none where OP is reserved (R67). -/
def opcodeOfByte (op : BitVec 8) : Option Opcode :=
  if op = 0x00#8 then some .nop
  else if op = 0x01#8 then some .init
  else if op = 0x02#8 then some .setbrt
  else if op = 0x03#8 then some .setsel
  else if op = 0x04#8 then some .setrng
  else if op = 0x05#8 then some .setall
  else if op = 0x06#8 then some .clear
  else if op = 0x07#8 then some .shift
  else if op = 0x08#8 then some .rotate
  else if op = 0x09#8 then some .grad
  else if op = 0x10#8 then some .pack
  else if op = 0x11#8 then some .scale
  else if op = 0x12#8 then some .hsl2rgb
  else if op = 0x13#8 then some .encrng
  else if op = 0x20#8 then some .rdcfg
  else if op = 0x21#8 then some .rdled
  else if op = 0x22#8 then some .rdbuf
  else none

/-- The match value of each row of R66. -/
def opcodeMatch : Opcode → CmdWord
  | .nop     => 0x0000000000000000#64
  | .init    => 0x0100000000000000#64
  | .setbrt  => 0x0200000000000000#64
  | .setsel  => 0x0300000000000000#64
  | .setrng  => 0x0400000000000000#64
  | .setall  => 0x0500000000000000#64
  | .clear   => 0x0600000000000000#64
  | .shift   => 0x0700000000000000#64
  | .rotate  => 0x0800000000000000#64
  | .grad    => 0x0900000000000000#64
  | .pack    => 0x1000000000000000#64
  | .scale   => 0x1100000000000000#64
  | .hsl2rgb => 0x1200000000000000#64
  | .encrng  => 0x1300000000000000#64
  | .rdcfg   => 0x2000000000000000#64
  | .rdled   => 0x2100000000000000#64
  | .rdbuf   => 0x2200000000000000#64

/-- The mask of each row of R66: the opcode's bits and the bits the format reserves. -/
def opcodeMask : Opcode → CmdWord
  | .nop     => 0xFFFFFFFFFFFFFFFF#64
  | .init    => 0xFFFFFFFFFF000000#64
  | .setbrt  => 0xFFFFFFFFFFFFFF00#64
  | .setsel  => 0xFF00000000000000#64
  | .setrng  => 0xFF00000000000000#64
  | .setall  => 0xFFFFFFFFFF000000#64
  | .clear   => 0xFFFFFFFFFFFFFFFF#64
  | .shift   => 0xFFFFFFFFFFFF0000#64
  | .rotate  => 0xFFFFFFFFFFFF0000#64
  | .grad    => 0xFF00000000000000#64
  | .pack    => 0xFFFFFFFFFF000000#64
  | .scale   => 0xFFFFFFFFFF000000#64
  | .hsl2rgb => 0xFFFFFFFFF0000000#64
  | .encrng  => 0xFFFFFFFF0000FF00#64
  | .rdcfg   => 0xFFFFFFFFFFFFFF00#64
  | .rdled   => 0xFFFFFFFFFFFF0000#64
  | .rdbuf   => 0xFFFFFFFFFF000000#64

/-- The slice `W[lo + len - 1 : lo]` (R8). -/
def wordField (w : CmdWord) (lo len : Nat) : BitVec len := w.extractLsb' lo len

/-- Field extraction (R63): the command of row `op` with the fields of `w`, OFF read as `sext_16`. -/
def commandOf (op : Opcode) (w : CmdWord) : Instr :=
  match op with
  | .nop     => .nop
  | .init    => .init (wordField w 16 8) (wordField w 0 16)
  | .setbrt  => .setbrt (wordField w 0 8)
  | .setsel  => .setsel (wordField w 24 32) (wordField w 0 24)
  | .setrng  => .setrng (wordField w 40 16) (wordField w 24 16) (wordField w 0 24)
  | .setall  => .setall (wordField w 0 24)
  | .clear   => .clear
  | .shift   => .shift (wordField w 0 16).toInt
  | .rotate  => .rotate (wordField w 0 16).toInt
  | .grad    => .grad (wordField w 40 16) (wordField w 24 16) (wordField w 12 12) (wordField w 0 12)
  | .pack    => .pack (wordField w 16 8) (wordField w 8 8) (wordField w 0 8)
  | .scale   => .scale (wordField w 0 24)
  | .hsl2rgb => .hsl2rgb (wordField w 16 12) (wordField w 8 8) (wordField w 0 8)
  | .encrng  => .encrng (wordField w 16 16) (wordField w 0 8)
  | .rdcfg   => .rdcfg (wordField w 0 8)
  | .rdled   => .rdled (wordField w 0 16)
  | .rdbuf   => .rdbuf (wordField w 0 24)

/-- The decoder of R61, total, a function of the word alone: the opcode map first (R67), then the reserved bits (R68),
then the fields (R63). -/
def decode (w : CmdWord) : Except DecodeError Instr :=
  match opcodeOfByte (wordField w 56 8) with
  | none => .error .reservedOpcode
  | some op => if w &&& opcodeMask op = opcodeMatch op then .ok (commandOf op w) else .error .reservedBits

/-- The 64-bit word of an instruction numbered as spec/opcode_table.json numbers it: the command word is the table's
one word, bit 0 its least significant bit; `nbits` bits of `w` are taken, the bits above them are 0 (log entry 10). -/
def tableWord (nbits w : Nat) : CmdWord := BitVec.ofNat 64 (w % 2 ^ nbits)

/-- What the decoder reads from a table word; none where it refuses, or where the bits do not fit one command word. -/
def decodeTableWord (nbits w : Nat) : Option Instr :=
  if w % 2 ^ nbits < 2 ^ 64 then
    match decode (tableWord nbits w) with
    | .ok i => some i
    | .error _ => none
  else none

/-- The opcode byte of each row (R66). -/
def opcodeByte : Opcode → BitVec 8
  | .nop     => 0x00#8
  | .init    => 0x01#8
  | .setbrt  => 0x02#8
  | .setsel  => 0x03#8
  | .setrng  => 0x04#8
  | .setall  => 0x05#8
  | .clear   => 0x06#8
  | .shift   => 0x07#8
  | .rotate  => 0x08#8
  | .grad    => 0x09#8
  | .pack    => 0x10#8
  | .scale   => 0x11#8
  | .hsl2rgb => 0x12#8
  | .encrng  => 0x13#8
  | .rdcfg   => 0x20#8
  | .rdled   => 0x21#8
  | .rdbuf   => 0x22#8

/-- The operand bits W[55:0] of each format (R62), reserved bits 0. -/
def encodeOperands : Instr → BitVec 56
  | .nop => 0#56
  | .init pin count => 0#32 ++ pin ++ count
  | .setbrt val => 0#48 ++ val
  | .setsel sel color => sel ++ color
  | .setrng first last color => first ++ last ++ color
  | .setall color => 0#32 ++ color
  | .clear => 0#56
  | .shift off => 0#40 ++ BitVec.ofInt 16 off
  | .rotate off => 0#40 ++ BitVec.ofInt 16 off
  | .grad start stop hue1 hue2 => start ++ stop ++ hue1 ++ hue2
  | .pack r g b => 0#32 ++ r ++ g ++ b
  | .scale color => 0#32 ++ color
  | .hsl2rgb hue sat lum => 0#28 ++ hue ++ sat ++ lum
  | .encrng first last8 => 0#24 ++ first ++ 0#8 ++ last8
  | .rdcfg reg => 0#48 ++ reg
  | .rdled idx => 0#40 ++ idx
  | .rdbuf addr => 0#32 ++ addr

/-- The encoder, from the same formats (R62, R66). -/
def encode (i : Instr) : CmdWord := opcodeByte i.opcode ++ encodeOperands i

/-- A command word listed as bytes: the most significant byte, the opcode, first (R56). -/
def wordBytes (w : CmdWord) : List Byte :=
  [wordField w 56 8, wordField w 48 8, wordField w 40 8, wordField w 32 8,
   wordField w 24 8, wordField w 16 8, wordField w 8 8, wordField w 0 8]

/-- The command word whose byte listing is the given eight bytes (R56); none for another number of bytes. -/
def wordOfBytes : List Byte → Option CmdWord
  | [b7, b6, b5, b4, b3, b2, b1, b0] => some (b7 ++ b6 ++ b5 ++ b4 ++ b3 ++ b2 ++ b1 ++ b0)
  | _ => none

end Sys2Proof
end

