-- ==== Sys2Proof/Config.lean ====
section
/-! DEFINITION. The three implementation parameters of HSLPIX (spec/00_scope.md R6). -/

namespace Sys2Proof

/-- The implementation parameters of R6, "fixed for the life of a model instance" (R22). A state carries
them, and no step changes them, so that a statement about every state is a statement about every
implementation. DESIGN CHOICE, log entry 1. -/
structure Params where
  /-- MAXLEDS, 1 to 65535: the largest LED count INIT accepts. -/
  maxLeds : BitVec 16
  /-- BRIGHT_RST, 0 to 255: BRIGHT after reset. -/
  brightRst : BitVec 8
  /-- FLUSH_ON_EMPTY: whether SETSEL and SETRNG flush when they wrote no LED. -/
  flushOnEmpty : Bool
  deriving DecidableEq, Repr

/-- The constraint of R6: 1 ≤ MAXLEDS ≤ 65535 (the upper bound is the width's). -/
abbrev Params.wf (p : Params) : Prop := 1 ≤ p.maxLeds.toNat

/-- The values R6 recommends. DESIGN CHOICE, log entry 1: `State.reset` takes them. -/
def Params.recommended : Params := { maxLeds := 256#16, brightRst := 255#8, flushOnEmpty := true }

end Sys2Proof
end

