-- ==== Sys2Proof/Machine/State.lean ====
section
/-! DEFINITION. The state of HSLPIX (spec/10_state.md R20 to R34), what the host does to it, what it emits, the
reasons a step can stop, and the state after reset. -/

namespace Sys2Proof.Machine

/-- The cells of the pixel buffer BUF that are not 0x00, addresses strictly rising. An address that is not listed reads
as 0x00, the byte INIT fills the buffer with (R131); the addresses that exist are 0 to 3 × LEDCOUNT − 1 (R29, R40). -/
abbrev Memory := List Host.Cell

/-- What a step may take from the host: the command and reset inputs of R249. DESIGN CHOICE, log entry 2: the host's
coming actions stand in the state as a list; nothing in the engine reads past the first. -/
inductive HostEvent where
  /-- The host presents one command word (R249). -/
  | command (w : CmdWord)
  /-- The host asserts reset between two commands (R260). -/
  | reset
  /-- The host presents a word and asserts reset while that command is in progress; `flushDelivered` says whether the
  command's flush, if it makes one, had been emitted by then, which R262 leaves open. Log entry 5. -/
  | cutCommand (w : CmdWord) (flushDelivered : Bool)
  deriving DecidableEq, Repr

/-- What the engine emits, in one list in the order of R52. -/
inductive TraceEvent where
  /-- One event on the sink port: the pin and a copy of the buffer (R50). -/
  | flush (pin : Byte) (bytes : List Byte)
  /-- One event on the response port (R231). -/
  | response (status : Byte) (value : BitVec 32)
  /-- Not an output: the place in the trace where a reset fell. DESIGN CHOICE, log entry 4. -/
  | resetMark
  deriving DecidableEq, Repr

/-- The STATUS names of R237. -/
inductive Status where
  | ok | badOp | rsvd | noInit | badCount | badSel | empty | clipped | noop | range | badArg
  deriving DecidableEq, Repr

/-- The state: the tuple (INITED, LEDCOUNT, BRIGHT, PIN, BUF) of R21, the implementation parameters (R6), and the model's
own record of the host's coming actions and of the outputs so far (R22). -/
structure State where
  /-- The implementation parameters, constant (R6). CAP, register 5, is `params.maxLeds`. -/
  params : Params
  /-- INITED, register 0 (R25). -/
  inited : Bool
  /-- LEDCOUNT, register 1 (R26). -/
  ledCount : BitVec 16
  /-- BRIGHT, register 2 (R27). -/
  bright : Byte
  /-- PIN, register 3 (R28). -/
  pin : Byte
  /-- BUF (R29). -/
  buf : Memory
  /-- What the host does next, first first (log entry 2). -/
  pending : List HostEvent
  /-- What the engine has emitted, first first (log entry 4). -/
  trace : List TraceEvent
  deriving DecidableEq, Repr

/-- The reasons a step could stop with a fault: none. "HSLPIX never traps, faults, aborts or halts" (R230), so the type has
no constructor and no meaning can raise one. Safe: the spec gives every word in every state its effect. -/
inductive Fault where
  deriving DecidableEq, Repr

/-- The reasons a step could be refused. -/
inductive Refusal where
  /-- An instruction without a meaning in this model, raised by `exec`'s arm for it. No arm raises it: every command of the
  opcode table has its meaning. Safe. -/
  | notModelled (mnemonic : String)
  deriving DecidableEq, Repr

/-- The state after power-up reset of an implementation with parameters `p` (R34, R261): nothing pending, nothing
emitted. -/
def State.powerOn (p : Params) : State :=
  { params := p, inited := false, ledCount := 0#16, bright := p.brightRst, pin := 0#8, buf := [], pending := [], trace := [] }

/-- The state right after reset (R34), for the parameter values R6 recommends (DESIGN CHOICE, log entry 1). -/
def State.reset : State := State.powerOn Params.recommended

end Sys2Proof.Machine
end

