-- ==== Sys2Proof/Machine/Flags.lean ====
section
/-! DEFINITION. The STATUS codes and the rules that choose among them (spec/60_exceptions.md R237, R238). HSLPIX has no
condition codes (R31): the status of a response is all there is. -/

namespace Sys2Proof.Machine

/-- The 8-bit STATUS code of each name (R237). -/
def statusCode : Status → Byte
  | .ok       => 0x00#8
  | .badOp    => 0x01#8
  | .rsvd     => 0x02#8
  | .noInit   => 0x03#8
  | .badCount => 0x04#8
  | .badSel   => 0x05#8
  | .empty    => 0x06#8
  | .clipped  => 0x07#8
  | .noop     => 0x08#8
  | .range    => 0x09#8
  | .badArg   => 0x0A#8

/-- The kind of a decoded selector (R76). -/
inductive SelKind where
  | plain | range | malformed
  deriving DecidableEq, Repr

/-- The status of WriteRange over the interval [f0, t0] after `written` LEDs were written (R133, R238): malformed before
empty before clipped before ok. -/
def rangeStatus (kind : SelKind) (f0 t0 : Int) (written : Nat) : Status :=
  if kind = .malformed then .badSel
  else if f0 > t0 then .empty
  else if (written : Int) < t0 - f0 + 1 then .clipped
  else .ok

/-- The status of GRAD (R196). -/
def gradStatus (steps : Int) (written : Nat) : Status :=
  if (written : Int) = steps then .ok else .clipped

end Sys2Proof.Machine
end

