-- ==== Sys2Proof/Machine/Operands.lean ====
section
/-! DEFINITION. Operand forms: the lanes of a Color (spec/40_colorcodec.md R100, R102), the integer primitives
(spec/00_scope.md R10), the packed LedRange (spec/30_encoding.md R75 to R78) and the configuration registers as RDCFG
numbers them (spec/10_state.md R24). -/

namespace Sys2Proof.Machine

/-- `color[23:16]` (R102). -/
def redOf (color : Color) : Byte := color.extractLsb' 16 8

/-- `color[15:8]` (R102). -/
def greenOf (color : Color) : Byte := color.extractLsb' 8 8

/-- `color[7:0]` (R102). -/
def blueOf (color : Color) : Byte := color.extractLsb' 0 8

/-- `(r << 16) | (g << 8) | b` (R101). -/
def colorOf (r g b : Byte) : Color := r ++ g ++ b

/-- `clamp(v, lo, hi) = min(max(v, lo), hi)` (R10). -/
def clamp (v lo hi : Int) : Int := min (max v lo) hi

/-- `a rem b`: the remainder truncated toward zero, with the sign of the dividend (R10, R175). -/
def remTrunc (a b : Int) : Int := a.tmod b

/-- `a mod b`: the non-negative remainder, for b > 0 (R10). -/
def modFloor (a b : Int) : Int := a.emod b

/-- A decoded selector: a kind and a 0-based closed interval of integers (R76). -/
structure Selection where
  kind : SelKind
  f0 : Int
  t0 : Int
  deriving DecidableEq, Repr

/-- `DecodeSel(SEL)` (R76): a plain 1-based index 1 to 16 (0 decodes outside every strip), a packed LedRange with the
marker 0x02 in bits 15:8, or a malformed selector with the empty interval. -/
def decodeSel (sel : BitVec 32) : Selection :=
  let z : Int := (sel.toNat : Int) - 1
  if z ≤ 15 then { kind := .plain, f0 := z, t0 := z }
  else if sel.extractLsb' 8 8 = 0x02#8 then
    { kind := .range, f0 := ((sel.extractLsb' 16 16).toNat : Int), t0 := ((sel.extractLsb' 0 8).toNat : Int) - 1 }
  else { kind := .malformed, f0 := 0, t0 := -1 }

/-- `EncodeRange(from, to)` (R77): `((from − 1) << 16) | (0x02 << 8) | to`, for 1 ≤ from. -/
def encodeRange (first : BitVec 16) (last8 : Byte) : BitVec 32 :=
  ((first.setWidth 32 - 1#32) <<< 16) ||| 0x0200#32 ||| last8.setWidth 32

/-- `n`, the number of LEDs as an integer (R11). -/
def State.n (s : State) : Nat := s.ledCount.toNat

/-- BUFLEN, the view 3 × LEDCOUNT (R24). -/
def State.bufLen (s : State) : Nat := 3 * s.n

/-- The configuration register that RDCFG numbers `reg`, zero-extended to 32 bits; none for the reserved numbers 6 to
255 (R24, R212). -/
def cfgRead (s : State) (reg : Byte) : Option (BitVec 32) :=
  if reg = 0#8 then some (if s.inited then 1#32 else 0#32)
  else if reg = 1#8 then some (s.ledCount.setWidth 32)
  else if reg = 2#8 then some (s.bright.setWidth 32)
  else if reg = 3#8 then some (s.pin.setWidth 32)
  else if reg = 4#8 then some (BitVec.ofNat 32 s.bufLen)
  else if reg = 5#8 then some (s.params.maxLeds.setWidth 32)
  else none

end Sys2Proof.Machine
end

