-- ==== Sys2Proof/Machine/ColorCodec.lean ====
section
/-! DEFINITION. The pure datapaths: the brightness multiplier (spec/40_colorcodec.md R103) and the HSL-to-RGB converter
(R106 to R112). The four formulas the spec marks as general knowledge (G1 to G4) are one definition each; UNVERIFIED
against the source repository, log entry 7. -/

namespace Sys2Proof.Machine

/-- One LED's three bytes in buffer order (R41, R171). -/
structure Led where
  green : Byte
  red : Byte
  blue : Byte
  deriving DecidableEq, Repr

/-- BLANK (R171). -/
def Led.blank : Led := { green := 0#8, red := 0#8, blue := 0#8 }

/-- `{green, red, blue}`, the buffer-order triplet as 24 bits (R47, R105). -/
def ledWord (l : Led) : BitVec 24 := l.green ++ l.red ++ l.blue

/-- `scale_ch(v, B) = (v × B + 127) div 255` (R103). -/
def scaleCh (v b : Byte) : Byte := BitVec.ofNat 8 ((v.toNat * b.toNat + 127) / 255)

/-- `scale(color, B)`: the three scaled channels in the order they are stored (R103). -/
def scaleColor (color : Color) (b : Byte) : Led :=
  { green := scaleCh (greenOf color) b, red := scaleCh (redOf color) b, blue := scaleCh (blueOf color) b }

/-- R107: `h mod 360`. -/
def hslHue (h : Nat) : Nat := h % 360

/-- R107: `min(v, 99)`, for saturation and luminance. -/
def hslClamp (v : Nat) : Nat := min v 99

/-- R108: the chroma `(((100 − |2l − 100|) × s) × 256) div 10000` of conditioned s and l. -/
def hslChroma (s l : Nat) : Nat := ((100 - (2 * (l : Int) - 100).natAbs) * s * 256) / 10000

/-- R109: the sector `h div 60`. -/
def hslSector (h : Nat) : Nat := h / 60

/-- R109, G1: the position inside the sector in 1/256ths. -/
def hslPosition (h : Nat) : Nat := ((h - 60 * hslSector h) * 256) / 60

/-- R110, G2: the distance of the hue from the nearest odd multiple of 60 degrees in 1/256ths. -/
def hslDistance (h : Nat) : Nat := (((hslSector h % 2 * 256 + hslPosition h : Nat) : Int) - 256).natAbs

/-- R110, G2: the second-largest component `(c × (256 − t)) >> 8`. -/
def hslSecond (c h : Nat) : Nat := (c * (256 - hslDistance h)) >>> 8

/-- R111, G3: the row `h1` of the LUT, the channels (red, green, blue) before the offset. The rows are 0 to 5. -/
def hslLut (h1 c x : Nat) : Nat × Nat × Nat :=
  if h1 = 0 then (c, x, 0)
  else if h1 = 1 then (x, c, 0)
  else if h1 = 2 then (0, c, x)
  else if h1 = 3 then (0, x, c)
  else if h1 = 4 then (x, 0, c)
  else (c, 0, x)

/-- R112, G4: the lightness offset `((((l × 2) × 256) div 100) − c) div 2`. -/
def hslOffset (c l : Nat) : Int := ((((l * 2 * 256) / 100 : Nat) : Int) - c).tdiv 2

/-- R112: `(v + m) & 0xFF`. -/
def hslChannel (v : Nat) (m : Int) : Byte := BitVec.ofInt 8 ((v : Int) + m)

/-- `hsl2rgb(h, s, l)` (R106): conditioning, chroma, sector, second component, LUT, offset, mask. -/
def hsl2rgb (h s l : Nat) : Color :=
  let h := hslHue h
  let s := hslClamp s
  let l := hslClamp l
  let c := hslChroma s l
  let rgb := hslLut (hslSector h) c (hslSecond c h)
  let m := hslOffset c l
  colorOf (hslChannel rgb.1 m) (hslChannel rgb.2.1 m) (hslChannel rgb.2.2 m)

end Sys2Proof.Machine
end

