-- ==== Sys2Proof/Machine/Ops.lean ====
section
/-! DEFINITION. The named operations over the buffer, the registers and the ports (spec/20_memory.md R44 to R50,
spec/60_exceptions.md R231, R232, spec/41_pixelbuffer.md R133, spec/70_reset_and_hazards.md R261). HSLPIX has no exception
to take and none to return from (R240, R241): `State.ignore` is the nearest counterpart. -/

namespace Sys2Proof.Machine

/-! ## The cells -/

/-- The byte at address `a`: 0x00 where no cell is listed. -/
def Memory.byteAt : Memory → Nat → Byte
  | [], _ => 0#8
  | (b, v) :: m, a => if b = a then v else Memory.byteAt m a

/-- The cells after byte `v` is stored at address `a`; the form stays canonical: a 0x00 is not listed. -/
def Memory.put : Memory → Nat → Byte → Memory
  | [], a, v => if v = 0#8 then [] else [(a, v)]
  | (b, x) :: m, a, v =>
    if a < b then (if v = 0#8 then (b, x) :: m else (a, v) :: (b, x) :: m)
    else if a = b then (if v = 0#8 then m else (a, v) :: m)
    else (b, x) :: Memory.put m a v

/-- The cells that hold the bytes `bs` from address `a` on and nothing else. -/
def Memory.ofBytes : Nat → List Byte → Memory
  | _, [] => []
  | a, v :: bs => if v = 0#8 then Memory.ofBytes (a + 1) bs else (a, v) :: Memory.ofBytes (a + 1) bs

/-- The canonical form: addresses strictly rising, no cell equal to what an unlisted address reads as. -/
abbrev Memory.wf (m : Memory) : Prop :=
  m.Pairwise (fun x y => x.1 < y.1) ∧ ∀ c ∈ m, c.2 ≠ 0#8

/-! ## The access primitives -/

/-- `MemRead(addr, 1)` (R44): `BUF[addr]` where addr < 3n, none outside. -/
def State.memRead (s : State) (addr : Nat) : Option Byte :=
  if addr < s.bufLen then some (s.buf.byteAt addr) else none

/-- `MemWrite(addr, 1, v)` (R45): outside the buffer nothing is written, silently. -/
def State.memWrite (s : State) (addr : Nat) (v : Byte) : State :=
  if addr < s.bufLen then { s with buf := s.buf.put addr v } else s

/-- `LED[i]` (R171): the triplet at 3i, 3i + 1, 3i + 2. -/
def State.led (s : State) (i : Nat) : Led :=
  { green := s.buf.byteAt (3 * i), red := s.buf.byteAt (3 * i + 1), blue := s.buf.byteAt (3 * i + 2) }

/-- `ReadLed(i)` (R47), for i < n. -/
def State.readLed (s : State) (i : Nat) : BitVec 24 := ledWord (s.led i)

/-- `WriteLed(i, color)` (R46): the three scaled bytes of LED i, green, red, blue, and 1; outside the strip nothing
and 0. -/
def State.writeLed (s : State) (i : Int) (color : Color) : State × Nat :=
  if 0 ≤ i ∧ i < s.n then
    let l := scaleColor color s.bright
    (((s.memWrite (3 * i.toNat) l.green).memWrite (3 * i.toNat + 1) l.red).memWrite (3 * i.toNat + 2) l.blue, 1)
  else (s, 0)

/-- `WriteLed` for each pair of an LED and a colour in turn, and how many LEDs were written (R133, R136, R191). -/
def State.writeLeds : State → List (Int × Color) → State × Nat
  | s, [] => (s, 0)
  | s, (i, color) :: ws =>
    let r := s.writeLed i color
    let q := State.writeLeds r.1 ws
    (q.1, r.2 + q.2)

/-- Assigning the LED sequence (R171): all 3n bytes of BUF are written, LED i with `f i`. -/
def State.assignLeds (s : State) (f : Nat → Led) : State :=
  { s with buf := Memory.ofBytes 0 ((List.range s.n).flatMap fun i => [(f i).green, (f i).red, (f i).blue]) }

/-- The bytes `BUF[0] … BUF[3n − 1]` (R50). -/
def State.bytes (s : State) : List Byte := (List.range s.bufLen).map s.buf.byteAt

/-! ## The ports -/

/-- `Flush()` (R50): one event on the sink port with the pin and a copy of the buffer. The sink always accepts (R51). -/
def State.flush (s : State) : State := { s with trace := s.trace ++ [.flush s.pin s.bytes] }

/-- `respond(status, value)` (R231): one event on the response port; the command ends. -/
def State.respond (s : State) (status : Status) (value : BitVec 32) : State :=
  { s with trace := s.trace ++ [.response (statusCode status) value] }

/-- `ignore(status)` (R232): a response with VALUE 0, nothing else. -/
def State.ignore (s : State) (status : Status) : State := s.respond status 0#32

/-- The common check of R236: the command `k` runs when INITED = 1 and is ignored with ST_NOINIT otherwise. -/
def State.whenInited (s : State) (k : State → State) : State :=
  if s.inited then k s else s.ignore .noInit

/-! ## The range writer -/

/-- The integers from `lo` to `hi`, ascending; none when lo > hi. -/
def intRange (lo hi : Int) : List Int := (List.range (hi - lo + 1).toNat).map fun (k : Nat) => lo + (k : Int)

/-- `WriteRange(kind, f0, t0, color)` (R133): the LEDs of the interval that lie in the strip, ascending, then the flush
(withheld only when nothing was written and FLUSH_ON_EMPTY is false), then the response. -/
def State.writeRange (s : State) (sel : Selection) (color : Color) : State :=
  let f0 := if sel.kind = .malformed then 0 else sel.f0
  let t0 := if sel.kind = .malformed then -1 else sel.t0
  let r := s.writeLeds ((intRange (max f0 0) (min t0 ((s.n : Int) - 1))).map fun i => (i, color))
  let q := if 0 < r.2 ∨ s.params.flushOnEmpty = true then r.1.flush else r.1
  q.respond (rangeStatus sel.kind f0 t0 r.2) (BitVec.ofNat 32 r.2)

/-- The full-strip writer (R136): every LED, one flush, VALUE n. -/
def State.writeAll (s : State) (color : Color) : State :=
  let r := s.writeLeds ((intRange 0 ((s.n : Int) - 1)).map fun i => (i, color))
  r.1.flush.respond .ok (BitVec.ofNat 32 s.n)

/-! ## Reset and the views of the trace -/

/-- The reset event (R261): the whole tuple takes its reset values; no response, no flush. The host's coming actions
stay, and the trace records where the reset fell (log entry 4). -/
def State.applyReset (s : State) : State :=
  { State.powerOn s.params with pending := s.pending, trace := s.trace ++ [.resetMark] }

/-- Whether an event is one on the sink port. -/
def isFlush : TraceEvent → Bool
  | .flush _ _ => true
  | .response _ _ | .resetMark => false

/-- Whether an event is an output of the engine: all but the mark of a reset. -/
def isOutput : TraceEvent → Bool
  | .flush _ _ | .response _ _ => true
  | .resetMark => false

/-- The events since the last reset: the response and flush streams of R34 and R249. -/
def State.traceSinceReset (s : State) : List TraceEvent :=
  (s.trace.reverse.takeWhile (fun e => decide (e ≠ .resetMark))).reverse

/-- The content of the physical strip (R245): the bytes of the most recent flush event, none (unknown) before the
first. -/
def State.stripContent (s : State) : Option (List Byte) :=
  match (s.trace.filter isFlush).getLast? with
  | some (.flush _ bytes) => some bytes
  | _ => none

end Sys2Proof.Machine
end

