-- ==== Sys2Proof/Machine/Codec.lean ====
section
/-! DEFINITION. The meanings of the ColorCodec family: PACK, SCALE, HSL2RGB, ENCRNG (spec/40_colorcodec.md). They change
no state, never flush, and run whether or not the engine is initialised. -/

namespace Sys2Proof.Machine

/-- PACK (R101). -/
def execPack (r g b : Byte) (s : State) : Host.Outcome State Fault Refusal :=
  .next (s.respond .ok ((colorOf r g b).setWidth 32))

/-- SCALE (R105): what WriteLed would store for the colour at the present brightness, in buffer order. -/
def execScale (color : Color) (s : State) : Host.Outcome State Fault Refusal :=
  .next (s.respond .ok ((ledWord (scaleColor color s.bright)).setWidth 32))

/-- HSL2RGB (R113): the logical Color, brightness not applied. -/
def execHsl2rgb (hue : BitVec 12) (sat lum : Byte) (s : State) : Host.Outcome State Fault Refusal :=
  .next (s.respond .ok ((hsl2rgb hue.toNat sat.toNat lum.toNat).setWidth 32))

/-- ENCRNG (R114): the packed LedRange; FROM = 0 is ignored with ST_BADARG. -/
def execEncrng (first : BitVec 16) (last8 : Byte) (s : State) : Host.Outcome State Fault Refusal :=
  .next (if first = 0#16 then s.ignore .badArg else s.respond .ok (encodeRange first last8))

end Sys2Proof.Machine
end

