-- ==== Sys2Proof/Machine/Gradient.lean ====
section
/-! DEFINITION. The meaning of the GradientFill family: GRAD (spec/43_gradient.md R191 to R196). -/

namespace Sys2Proof.Machine

/-- A gradient's operands after index conditioning: the 0-based bounds (R192). -/
structure GradSpan where
  s0 : Int
  e0 : Int
  deriving DecidableEq, Repr

/-- Index conditioning (R192): the indices, never the hues, are swapped when END < START; both are made 0-based and
clamped into 0 .. n, the upper bound n and not n − 1. -/
def gradSpan (n : Nat) (start stop : Nat) : GradSpan :=
  let lo : Int := if stop < start then stop else start
  let hi : Int := if stop < start then start else stop
  { s0 := clamp (lo - 1) 0 n, e0 := clamp (hi - 1) 0 n }

/-- `steps = e0 − s0 + 1` (R192). -/
def gradSteps (g : GradSpan) : Int := g.e0 - g.s0 + 1

/-- The clockwise hue distance `hd = ((HUE2 + 360) − HUE1) mod 360` (R193). -/
def gradDistance (hue1 hue2 : Nat) : Int := modFloor (((hue2 : Int) + 360) - hue1) 360

/-- The hue step scaled by 100, `hs = (hd × 100) div steps` (R193). -/
def gradHueStep (hue1 hue2 : Nat) (steps : Int) : Int := (gradDistance hue1 hue2 * 100).tdiv steps

/-- The colour of a gradient hue: saturation 100, which the converter clamps to 99, luminance 50 (R195). -/
def gradColor (hue : Int) : Color := hsl2rgb hue.toNat 100 50

/-- The LED writes of a gradient in ascending order (R194): the exact end hues at the ends and the interpolated hue between
them, or for one LED the start hue plus one scaled step. -/
def gradWrites (g : GradSpan) (hue1 hue2 : Nat) : List (Int × Color) :=
  let steps := gradSteps g
  let hs := gradHueStep hue1 hue2 steps
  if steps = 1 then [(g.s0, gradColor ((hue1 : Int) + hs))]
  else
    (g.s0, gradColor hue1) ::
      ((intRange 1 (steps - 2)).map fun i => (g.s0 + i, gradColor (((hue1 : Int) * 100 + i * hs).tdiv 100))) ++
      [(g.e0, gradColor hue2)]

/-- GRAD (R191, R196): the writes through the brightness multiplier, one flush always, and whether every LED was inside
the strip. -/
def execGrad (start stop : BitVec 16) (hue1 hue2 : BitVec 12) (s : State) : Host.Outcome State Fault Refusal :=
  .next (s.whenInited fun s =>
    let g := gradSpan s.n start.toNat stop.toNat
    let r := s.writeLeds (gradWrites g hue1.toNat hue2.toNat)
    r.1.flush.respond (gradStatus (gradSteps g) r.2) (BitVec.ofNat 32 r.2))

end Sys2Proof.Machine
end

