-- ==== Sys2Proof/Machine/PixelBuffer.lean ====
section
/-! DEFINITION. The meanings of the PixelBuffer family: INIT, SETBRT, SETSEL, SETRNG, SETALL, CLEAR
(spec/41_pixelbuffer.md). -/

namespace Sys2Proof.Machine

/-- INIT (R131): records the pin, sets the LED count, replaces the buffer by zeroes; BRIGHT unchanged, no flush. A COUNT of
0 or above MAXLEDS is ignored with ST_BADCOUNT. -/
def execInit (pin : Byte) (count : BitVec 16) (s : State) : Host.Outcome State Fault Refusal :=
  .next (if count = 0#16 ∨ s.params.maxLeds.toNat < count.toNat then s.ignore .badCount
    else { s with pin := pin, ledCount := count, buf := [], inited := true }.respond .ok 0#32)

/-- SETBRT (R132): BRIGHT only; the buffer is not rescaled. -/
def execSetbrt (val : Byte) (s : State) : Host.Outcome State Fault Refusal :=
  .next ({ s with bright := val }.respond .ok 0#32)

/-- SETSEL (R134): `WriteRange(DecodeSel(SEL), COLOR)`. -/
def execSetsel (sel : BitVec 32) (color : Color) (s : State) : Host.Outcome State Fault Refusal :=
  .next (s.whenInited fun s => s.writeRange (decodeSel sel) color)

/-- SETRNG (R135): `WriteRange(RANGE, FROM − 1, TO − 1, COLOR)`. -/
def execSetrng (first last : BitVec 16) (color : Color) (s : State) : Host.Outcome State Fault Refusal :=
  .next (s.whenInited fun s =>
    s.writeRange { kind := .range, f0 := (first.toNat : Int) - 1, t0 := (last.toNat : Int) - 1 } color)

/-- SETALL (R136). -/
def execSetall (color : Color) (s : State) : Host.Outcome State Fault Refusal :=
  .next (s.whenInited fun s => s.writeAll color)

/-- CLEAR (R137): as SETALL with COLOR = 0x000000. -/
def execClear (s : State) : Host.Outcome State Fault Refusal :=
  .next (s.whenInited fun s => s.writeAll 0x000000#24)

end Sys2Proof.Machine
end

