-- ==== Sys2Proof/Machine/System.lean ====
section
/-! DEFINITION. The meanings of the system and read-back commands: NOP, RDCFG, RDLED, RDBUF (spec/44_system.md). They
change no state and never flush. -/

namespace Sys2Proof.Machine

/-- NOP (R211). -/
def execNop (s : State) : Host.Outcome State Fault Refusal :=
  .next (s.respond .ok 0#32)

/-- RDCFG (R212). -/
def execRdcfg (reg : Byte) (s : State) : Host.Outcome State Fault Refusal :=
  .next (match cfgRead s reg with
    | some v => s.respond .ok v
    | none => s.ignore .range)

/-- RDLED (R213): IDX is 1-based. -/
def execRdled (idx : BitVec 16) (s : State) : Host.Outcome State Fault Refusal :=
  .next (s.whenInited fun s =>
    if idx.toNat = 0 ∨ s.n < idx.toNat then s.ignore .range
    else s.respond .ok ((s.readLed (idx.toNat - 1)).setWidth 32))

/-- RDBUF (R214). -/
def execRdbuf (addr : BitVec 24) (s : State) : Host.Outcome State Fault Refusal :=
  .next (s.whenInited fun s =>
    match s.memRead addr.toNat with
    | some v => s.respond .ok (v.setWidth 32)
    | none => s.ignore .range)

end Sys2Proof.Machine
end

