-- ==== Sys2Proof/Machine/Transform.lean ====
section
/-! DEFINITION. The meanings of the BufferTransform family: SHIFT, ROTATE (spec/42_transform.md). Stored bytes move as
they are: the brightness multiplier is not applied (R140, R170). -/

namespace Sys2Proof.Machine

/-- The LED sequence after a linear displacement (R172): `old[i − OFF]` where that LED exists, else BLANK. -/
def shiftedLed (s : State) (off : Int) (i : Nat) : Led :=
  if 0 ≤ (i : Int) - off ∧ (i : Int) - off < s.n then s.led ((i : Int) - off).toNat else Led.blank

/-- The LED sequence after a circular displacement (R174): `old[(i − k) mod n]`. -/
def rotatedLed (s : State) (k : Int) (i : Nat) : Led :=
  s.led (modFloor ((i : Int) - k) s.n).toNat

/-- SHIFT (R172, R173): OFF = 0 does nothing and does not flush. -/
def execShift (off : Int) (s : State) : Host.Outcome State Fault Refusal :=
  .next (s.whenInited fun s =>
    if off = 0 then s.respond .noop 0#32
    else (s.assignLeds (shiftedLed s off)).flush.respond .ok 0#32)

/-- ROTATE (R174, R175): n ≤ 1, or a reduced offset of 0, does nothing and does not flush. -/
def execRotate (off : Int) (s : State) : Host.Outcome State Fault Refusal :=
  .next (s.whenInited fun s =>
    if s.n ≤ 1 then s.respond .noop 0#32
    else if remTrunc off s.n = 0 then s.respond .noop 0#32
    else (s.assignLeds (rotatedLed s (remTrunc off s.n))).flush.respond .ok 0#32)

end Sys2Proof.Machine
end

