-- ==== Sys2Proof/Machine/Dispatch.lean ====
section
/-! DEFINITION. One arm per constructor of `Instr`, in the order of spec/opcode_table.json. -/

namespace Sys2Proof.Machine

def exec (i : Instr) (s : State) : Host.Outcome State Fault Refusal :=
  match i with
  | .nop => Sys2Proof.Machine.execNop s
  | .init pin count => Sys2Proof.Machine.execInit pin count s
  | .setbrt val => Sys2Proof.Machine.execSetbrt val s
  | .setsel sel color => Sys2Proof.Machine.execSetsel sel color s
  | .setrng first last color => Sys2Proof.Machine.execSetrng first last color s
  | .setall color => Sys2Proof.Machine.execSetall color s
  | .clear => Sys2Proof.Machine.execClear s
  | .shift off => Sys2Proof.Machine.execShift off s
  | .rotate off => Sys2Proof.Machine.execRotate off s
  | .grad start stop hue1 hue2 => Sys2Proof.Machine.execGrad start stop hue1 hue2 s
  | .pack r g b => Sys2Proof.Machine.execPack r g b s
  | .scale color => Sys2Proof.Machine.execScale color s
  | .hsl2rgb hue sat lum => Sys2Proof.Machine.execHsl2rgb hue sat lum s
  | .encrng first last8 => Sys2Proof.Machine.execEncrng first last8 s
  | .rdcfg reg => Sys2Proof.Machine.execRdcfg reg s
  | .rdled idx => Sys2Proof.Machine.execRdled idx s
  | .rdbuf addr => Sys2Proof.Machine.execRdbuf addr s

end Sys2Proof.Machine
end

