-- ==== Sys2Proof/Machine/Present.lean ====
section
/-! DEFINITION. What the engine does with what the host presents: a command word (spec/60_exceptions.md R233), a reset
(spec/70_reset_and_hazards.md R261), a command cut short by reset (R262). -/

namespace Sys2Proof.Machine

/-- The response to a word that is no command (R234, R235): ignored, with the status of the reason. -/
def ignoreWord (e : DecodeError) (s : State) : State :=
  match e with
  | .reservedOpcode => s.ignore .badOp
  | .reservedBits => s.ignore .rsvd

/-- One command word (R233): the decoder's two checks, then the command, whose meaning begins with the not-initialised
check where R236 names it. -/
def runWord (w : CmdWord) (s : State) : Host.Outcome State Fault Refusal :=
  match decode w with
  | .ok i => exec i s
  | .error e => .next (ignoreWord e s)

/-- The flush events that `after` has emitted beyond `before`. -/
def flushesSince (before after : State) : List TraceEvent :=
  (after.trace.drop before.trace.length).filter isFlush

/-- What is left of a command that reset cut short (R262): its flush event, if it had been delivered, and the reset state. Its
response is never emitted. -/
def cutShort (before after : State) (flushDelivered : Bool) : State :=
  { before with trace := before.trace ++ (if flushDelivered then flushesSince before after else []) }.applyReset

/-- One action of the host. -/
def runEvent (e : HostEvent) (s : State) : Host.Outcome State Fault Refusal :=
  match e with
  | .command w => runWord w s
  | .reset => .next s.applyReset
  | .cutCommand w flushDelivered =>
    match runWord w s with
    | .next t => .next (cutShort s t flushDelivered)
    | .fault r => .fault r
    | .refused r => .refused r

/-- `s` with the instruction numbered as spec/opcode_table.json numbers it (log entry 10) as the host's next command. -/
def State.presentTableWord (s : State) (nbits w : Nat) : State :=
  { s with pending := .command (tableWord nbits w) :: s.pending }

end Sys2Proof.Machine
end

