-- ==== Sys2Proof/Machine/Assembler.lean ====
section
/-! DEFINITION. The listing syntax of commands and the two pseudo-instructions (spec/30_encoding.md R71, R72). -/

namespace Sys2Proof.Machine

/-- What may stand first on a line: a mnemonic of the opcode map or a pseudo-instruction (R71, R72). -/
inductive AsmOp where
  | op (o : Opcode)
  | setidx
  | setselr
  deriving DecidableEq, Repr

/-- The mnemonics in upper case (R66, R72). -/
def asmNames : List (List Char × AsmOp) :=
  [(['N','O','P'], .op .nop), (['I','N','I','T'], .op .init), (['S','E','T','B','R','T'], .op .setbrt),
   (['S','E','T','S','E','L'], .op .setsel), (['S','E','T','R','N','G'], .op .setrng),
   (['S','E','T','A','L','L'], .op .setall), (['C','L','E','A','R'], .op .clear), (['S','H','I','F','T'], .op .shift),
   (['R','O','T','A','T','E'], .op .rotate), (['G','R','A','D'], .op .grad), (['P','A','C','K'], .op .pack),
   (['S','C','A','L','E'], .op .scale), (['H','S','L','2','R','G','B'], .op .hsl2rgb),
   (['E','N','C','R','N','G'], .op .encrng), (['R','D','C','F','G'], .op .rdcfg), (['R','D','L','E','D'], .op .rdled),
   (['R','D','B','U','F'], .op .rdbuf), (['S','E','T','I','D','X'], .setidx), (['S','E','T','S','E','L','R'], .setselr)]

/-- An unsigned operand of `width` bits; none where the number does not fit (R64). -/
def asmField (width : Nat) (v : Int) : Option (BitVec width) :=
  if 0 ≤ v ∧ v < 2 ^ width then some (BitVec.ofInt width v) else none

/-- The command a line stands for (R71), a pseudo-instruction rewritten into its one command (R72); none where the number of
operands or an operand's range does not fit. -/
def assemble (o : AsmOp) (args : List Int) : Option Instr :=
  match o, args with
  | .op .nop, [] => some .nop
  | .op .init, [p, c] => return .init (← asmField 8 p) (← asmField 16 c)
  | .op .setbrt, [v] => return .setbrt (← asmField 8 v)
  | .op .setsel, [x, c] => return .setsel (← asmField 32 x) (← asmField 24 c)
  | .op .setrng, [f, t, c] => return .setrng (← asmField 16 f) (← asmField 16 t) (← asmField 24 c)
  | .op .setall, [c] => return .setall (← asmField 24 c)
  | .op .clear, [] => some .clear
  | .op .shift, [d] => if offInRange d then some (.shift d) else none
  | .op .rotate, [d] => if offInRange d then some (.rotate d) else none
  | .op .grad, [a, b, h, k] => return .grad (← asmField 16 a) (← asmField 16 b) (← asmField 12 h) (← asmField 12 k)
  | .op .pack, [r, g, b] => return .pack (← asmField 8 r) (← asmField 8 g) (← asmField 8 b)
  | .op .scale, [c] => return .scale (← asmField 24 c)
  | .op .hsl2rgb, [h, x, l] => return .hsl2rgb (← asmField 12 h) (← asmField 8 x) (← asmField 8 l)
  | .op .encrng, [f, t] => return .encrng (← asmField 16 f) (← asmField 8 t)
  | .op .rdcfg, [r] => return .rdcfg (← asmField 8 r)
  | .op .rdled, [k] => return .rdled (← asmField 16 k)
  | .op .rdbuf, [a] => return .rdbuf (← asmField 24 a)
  | .setidx, [k, c] => if 1 ≤ k ∧ k ≤ 16 then return .setsel (← asmField 32 k) (← asmField 24 c) else none
  | .setselr, [f, t, c] =>
    if 1 ≤ f then return .setsel (encodeRange (← asmField 16 f) (← asmField 8 t)) (← asmField 24 c) else none
  | _, _ => none

/-- The value of one digit in a base of at most 16, capitals allowed. -/
def digitValue (c : Char) : Option Nat :=
  if '0' ≤ c ∧ c ≤ '9' then some (c.toNat - '0'.toNat)
  else if 'a' ≤ c ∧ c ≤ 'f' then some (c.toNat - 'a'.toNat + 10)
  else if 'A' ≤ c ∧ c ≤ 'F' then some (c.toNat - 'A'.toNat + 10)
  else none

/-- The number that the digits write in the base, read after `acc`; none for no number. -/
def digitsValue (base : Nat) : Nat → List Char → Option Nat
  | acc, [] => some acc
  | acc, c :: cs =>
    match digitValue c with
    | some d => if d < base then digitsValue base (acc * base + d) cs else none
    | none => none

/-- Whether the character is read as the minus sign of R71, which names no character: ASCII '-' (U+002D), as in R71's own
example, and '−' (U+2212), as in the listings of spec/95_test_vectors.md. DESIGN CHOICE (log entry 14), safe. -/
def isMinus (c : Char) : Bool :=
  c = '-' || c = '−'

/-- A decimal or `0x` hexadecimal number (R71). A minus sign (`isMinus`; which characters it is, is a DESIGN CHOICE, log entry
14, safe) may stand before a decimal number. -/
def numberOf : List Char → Option Int
  | '0' :: 'x' :: c :: cs => (digitsValue 16 0 (c :: cs)).map fun v => (v : Int)
  | sign :: c :: cs =>
    if isMinus sign then (digitsValue 10 0 (c :: cs)).map fun v => -(v : Int)
    else (digitsValue 10 0 (sign :: c :: cs)).map fun v => (v : Int)
  | [c] => (digitsValue 10 0 [c]).map fun v => (v : Int)
  | [] => none

/-- The text without spaces at either end. -/
def trimSpaces (cs : List Char) : List Char :=
  ((cs.dropWhile (· = ' ')).reverse.dropWhile (· = ' ')).reverse

/-- The pieces between commas. -/
def splitCommas : List Char → List (List Char)
  | [] => [[]]
  | c :: cs =>
    match splitCommas cs with
    | p :: ps => if c = ',' then [] :: p :: ps else (c :: p) :: ps
    | [] => [[c]]

/-- One line of a listing (R71): a mnemonic in upper case, then the fields separated by commas; `;` starts a comment. -/
def assembleLine (line : List Char) : Option Instr := do
  let code := trimSpaces (line.takeWhile (· ≠ ';'))
  let name := code.takeWhile (· ≠ ' ')
  let rest := trimSpaces (code.dropWhile (· ≠ ' '))
  let o ← (asmNames.find? fun p => decide (p.1 = name)).map Prod.snd
  let args ← if rest = [] then some [] else (splitCommas rest).mapM fun p => numberOf (trimSpaces p)
  assemble o args

end Sys2Proof.Machine
end

