-- ==== Sys2Proof/Safety.lean ====
section
/-! DEFINITION. The invariants of the machine (spec/10_state.md R26, R28, R29, spec/00_scope.md R6) and what "all else unchanged"
means in the statements. -/

namespace Sys2Proof.Machine

/-- What holds of every state an implementation can be in: the parameters are legal (R6); LEDCOUNT is 0 exactly while INITED
is 0 and at most MAXLEDS (R26); PIN is 0 before the first INIT (R28); the cells are canonical, and none lies outside the 3n
bytes of the buffer (R29). -/
structure State.Inv (s : State) : Prop where
  params_wf : s.params.wf
  count_of_inited : s.inited = true → 1 ≤ s.n ∧ s.n ≤ s.params.maxLeds.toNat
  count_of_uninited : s.inited = false → s.ledCount = 0#16
  pin_of_uninited : s.inited = false → s.pin = 0#8
  buf_wf : s.buf.wf
  buf_inside : ∀ c ∈ s.buf, c.1 < s.bufLen

/-- The architectural tuple (INITED, LEDCOUNT, BRIGHT, PIN, BUF) of R21, and the constant parameters, are the same. -/
def State.sameTuple (s t : State) : Prop :=
  t.params = s.params ∧ t.inited = s.inited ∧ t.ledCount = s.ledCount ∧ t.bright = s.bright ∧ t.pin = s.pin ∧ t.buf = s.buf

/-- Every register, the parameters and the host's coming actions are the same; BUF and the trace may differ. -/
def State.sameButBuf (s t : State) : Prop :=
  t.params = s.params ∧ t.inited = s.inited ∧ t.ledCount = s.ledCount ∧ t.bright = s.bright ∧ t.pin = s.pin ∧
    t.pending = s.pending

/-- The common end of a command that flushed and answered: BUF is what it is in `t`, the registers and the host's coming actions
are those of `s`, and the trace has the one flush, of PIN and the whole of BUF as it now stands, and then the response (R50,
R52, R231). LEDCOUNT being the same, no address from 3n on exists before or after. -/
def State.flushedAs (s t : State) (status : Byte) (value : BitVec 32) : Prop :=
  s.sameButBuf t ∧ t.trace = s.trace ++ [.flush s.pin t.bytes, .response status value]

/-- LED `i` holds the triplet `l`: green, red, blue at 3i, 3i + 1, 3i + 2 (R41). -/
def State.holdsLed (t : State) (i : Nat) (l : Led) : Prop :=
  t.memRead (3 * i) = some l.green ∧ t.memRead (3 * i + 1) = some l.red ∧ t.memRead (3 * i + 2) = some l.blue

/-- What a write of one colour over the 0-based interval [f0, t0] leaves (R133): `written` is how many LEDs of the interval
lie in the strip; those hold the scaled colour; every byte of another LED, every register and the host's coming actions are as
they were. -/
def State.rangeWritten (s : State) (f0 t0 : Int) (color : Color) (t : State) (written : Nat) : Prop :=
  s.sameButBuf t ∧ (written : Int) = max 0 (min t0 ((s.n : Int) - 1) - max f0 0 + 1) ∧
    (∀ i : Nat, i < s.n → f0 ≤ i → (i : Int) ≤ t0 → t.holdsLed i (scaleColor color s.bright)) ∧
    (∀ a : Nat, ¬(f0 ≤ ((a / 3 : Nat) : Int) ∧ ((a / 3 : Nat) : Int) ≤ t0) → t.memRead a = s.memRead a)

/-- The state after a command that only answered: one response more in the trace and nothing else changed (R231). -/
def State.answered (s : State) (status : Byte) (value : BitVec 32) : State :=
  { s with trace := s.trace ++ [.response status value] }

end Sys2Proof.Machine
end

