-- ==== Sys2Proof/Certificates/Slice0/Obligations.lean ====
section
/-! DEFINITION. The statements about the machine, each from the rules of spec/ its docstring names. In the statements about
`step`, that the host presents a word is said by the word standing first in `pending` (log entry 2). -/

open Sys2Proof Sys2Proof.Machine

/-! ## Encoding (spec/30_encoding.md) -/

/-- R61 to R63: a well-formed command is what the decoder reads from its encoding; no operand bit is dropped. -/
def Obligations.EncodedCommandDecodesToItself : Prop :=
  ∀ i : Instr, i.wellFormed = true → decode (encode i) = .ok i

/-- R61, R68: a word that decodes is the encoding of the command it decodes to, and that command is well formed; each
command has one word. -/
def Obligations.DecodedWordIsItsEncoding : Prop :=
  ∀ (w : CmdWord) (i : Instr), decode w = .ok i → i.wellFormed = true ∧ encode i = w

/-- R66: the opcode map; `(W & mask) == match` holds exactly for the words that decode to the row's command. -/
def Obligations.OpcodeMapIsTheMatchMaskTest : Prop :=
  ∀ row ∈ ([(.nop, 0x0000000000000000#64, 0xFFFFFFFFFFFFFFFF#64), (.init, 0x0100000000000000#64, 0xFFFFFFFFFF000000#64),
      (.setbrt, 0x0200000000000000#64, 0xFFFFFFFFFFFFFF00#64), (.setsel, 0x0300000000000000#64, 0xFF00000000000000#64),
      (.setrng, 0x0400000000000000#64, 0xFF00000000000000#64), (.setall, 0x0500000000000000#64, 0xFFFFFFFFFF000000#64),
      (.clear, 0x0600000000000000#64, 0xFFFFFFFFFFFFFFFF#64), (.shift, 0x0700000000000000#64, 0xFFFFFFFFFFFF0000#64),
      (.rotate, 0x0800000000000000#64, 0xFFFFFFFFFFFF0000#64), (.grad, 0x0900000000000000#64, 0xFF00000000000000#64),
      (.pack, 0x1000000000000000#64, 0xFFFFFFFFFF000000#64), (.scale, 0x1100000000000000#64, 0xFFFFFFFFFF000000#64),
      (.hsl2rgb, 0x1200000000000000#64, 0xFFFFFFFFF0000000#64), (.encrng, 0x1300000000000000#64, 0xFFFFFFFF0000FF00#64),
      (.rdcfg, 0x2000000000000000#64, 0xFFFFFFFFFFFFFF00#64), (.rdled, 0x2100000000000000#64, 0xFFFFFFFFFFFF0000#64),
      (.rdbuf, 0x2200000000000000#64, 0xFFFFFFFFFF000000#64)] : List (Opcode × CmdWord × CmdWord)),
    ∀ w : CmdWord, (∃ i, decode w = .ok i ∧ i.opcode = row.1) ↔ w &&& row.2.2 = row.2.1

/-- R234: a word whose opcode is reserved (the three runs of R67) changes nothing, flushes nothing and is answered (ST_BADOP, 0),
whatever its other 56 bits are. -/
def Obligations.ReservedOpcodeIsIgnored : Prop :=
  ∀ (s : State) (w : CmdWord) (rest : List HostEvent), s.pending = .command w :: rest →
    (let op := (w.extractLsb' 56 8).toNat
     (0x0A ≤ op ∧ op ≤ 0x0F) ∨ (0x14 ≤ op ∧ op ≤ 0x1F) ∨ 0x23 ≤ op) →
    step s = .next ({ s with pending := rest }.answered 0x01#8 0#32)

/-- R68, R235: a word with a defined opcode and a 1 in the bits its format reserves changes nothing, flushes nothing and is
answered (ST_RSVD, 0), in every state; SETSEL, SETRNG and GRAD words have no reserved bits. -/
def Obligations.ReservedBitsAreIgnored : Prop :=
  (∀ row ∈ ([(0x00#8, 0x00FFFFFFFFFFFFFF#64), (0x06#8, 0x00FFFFFFFFFFFFFF#64), (0x01#8, 0x00FFFFFFFF000000#64),
      (0x05#8, 0x00FFFFFFFF000000#64), (0x10#8, 0x00FFFFFFFF000000#64), (0x11#8, 0x00FFFFFFFF000000#64),
      (0x22#8, 0x00FFFFFFFF000000#64), (0x02#8, 0x00FFFFFFFFFFFF00#64), (0x20#8, 0x00FFFFFFFFFFFF00#64),
      (0x07#8, 0x00FFFFFFFFFF0000#64), (0x08#8, 0x00FFFFFFFFFF0000#64), (0x21#8, 0x00FFFFFFFFFF0000#64),
      (0x12#8, 0x00FFFFFFF0000000#64), (0x13#8, 0x00FFFFFF0000FF00#64)] : List (BitVec 8 × CmdWord)),
    ∀ (s : State) (w : CmdWord) (rest : List HostEvent), s.pending = .command w :: rest →
      w.extractLsb' 56 8 = row.1 → w &&& row.2 ≠ 0#64 →
      step s = .next ({ s with pending := rest }.answered 0x02#8 0#32)) ∧
  ∀ w : CmdWord, w.extractLsb' 56 8 = 0x03#8 ∨ w.extractLsb' 56 8 = 0x04#8 ∨ w.extractLsb' 56 8 = 0x09#8 →
    ∃ i, decode w = .ok i

/-- Words that the spec writes out in its examples decode to the commands it gives for them. -/
def Obligations.WordsOfTheSpecDecode : Prop :=
  decode 0x01000000000F0005#64 = .ok (.init 15#8 5#16) ∧
  decode 0x0400010005FF0000#64 = .ok (.setrng 1#16 5#16 0xFF0000#24) ∧
  decode 0x080000000000FFFE#64 = .ok (.rotate (-2)) ∧
  decode 0x09000100050000F0#64 = .ok (.grad 1#16 5#16 0#12 240#12) ∧
  decode 0x12000000001E6332#64 = .ok (.hsl2rgb 30#12 99#8 50#8) ∧
  decode 0x2100000000000001#64 = .ok (.rdled 1#16)

/-- R56: the byte listing of a word, most significant byte first, and that it gives the word back. -/
def Obligations.WordListsMostSignificantByteFirst : Prop :=
  ∀ w : CmdWord, wordOfBytes (wordBytes w) = some w ∧ (wordBytes w).length = 8 ∧
    ∀ k < 8, (wordBytes w)[k]? = some (w.extractLsb' (56 - 8 * k) 8)

/-- R76: DecodeSel, case by case in arithmetic on the selector. -/
def Obligations.SelectorDecodesByCases : Prop :=
  ∀ sel : BitVec 32,
    (sel.toNat ≤ 16 → decodeSel sel = { kind := .plain, f0 := (sel.toNat : Int) - 1, t0 := (sel.toNat : Int) - 1 }) ∧
    (16 < sel.toNat → sel.toNat / 256 % 256 = 2 →
      decodeSel sel = { kind := .range, f0 := ((sel.toNat / 65536 : Nat) : Int), t0 := ((sel.toNat % 256 : Nat) : Int) - 1 }) ∧
    (16 < sel.toNat → sel.toNat / 256 % 256 ≠ 2 → decodeSel sel = { kind := .malformed, f0 := 0, t0 := -1 })

/-- R77: the value of EncodeRange, and that DecodeSel gives the 0-based interval back. -/
def Obligations.EncodedRangeDecodesToItsInterval : Prop :=
  ∀ (first : BitVec 16) (last8 : BitVec 8), 1 ≤ first.toNat →
    (encodeRange first last8).toNat = (first.toNat - 1) * 65536 + 0x02 * 256 + last8.toNat ∧
    decodeSel (encodeRange first last8) =
      { kind := .range, f0 := (first.toNat : Int) - 1, t0 := (last8.toNat : Int) - 1 }

/-- R72: the two pseudo-instructions and their conditions. -/
def Obligations.PseudoInstructionsRewriteToOneCommand : Prop :=
  (∀ k color : Int, 1 ≤ k → k ≤ 16 → assemble .setidx [k, color] = assemble (.op .setsel) [k, color]) ∧
  (∀ k color : Int, k < 1 ∨ 16 < k → assemble .setidx [k, color] = none) ∧
  (∀ (first : BitVec 16) (last8 : BitVec 8) (color : Color), 1 ≤ first.toNat →
    assemble .setselr [(first.toNat : Int), (last8.toNat : Int), (color.toNat : Int)] =
      some (.setsel (encodeRange first last8) color))

/-! ## One step (spec/60_exceptions.md, spec/70_reset_and_hazards.md) -/

/-- R61, R233: a presented word that decodes to a command is run as that command, and the host's other actions stay. The word
that `withFetchWord` places is the one the next step runs (the model's convention, log entries 2 and 10). -/
def Obligations.StepRunsTheDecodedCommand : Prop :=
  (∀ (s : State) (w : CmdWord) (rest : List HostEvent) (i : Instr), s.pending = .command w :: rest → decode w = .ok i →
    step s = exec i { s with pending := rest }) ∧
  (∀ (s : State) (w : CmdWord) (i : Instr), decode w = .ok i → step (s.withFetchWord 64 w.toNat) = exec i s)

/-- The model's choice (log entry 3): with nothing presented the engine waits. -/
def Obligations.IdleEngineWaits : Prop :=
  ∀ s : State, s.pending = [] → step s = .next s

/-- R261: reset makes the tuple its reset values, whatever it was, and emits no response and no flush: the outputs and the
content of the physical strip stay as they are. -/
def Obligations.ResetRestoresTheResetState : Prop :=
  ∀ (s : State) (rest : List HostEvent), s.pending = .reset :: rest →
    ∃ t, step s = .next t ∧ t.params = s.params ∧ t.inited = false ∧ t.ledCount = 0#16 ∧ t.bright = s.params.brightRst ∧
      t.pin = 0#8 ∧ t.buf = [] ∧ t.bytes = [] ∧ t.pending = rest ∧
      t.trace.filter isOutput = s.trace.filter isOutput ∧ t.stripContent = s.stripContent

/-- R262: a command that reset cuts short leaves the reset state, no response, and its flush event exactly if it had been
emitted; `u` is the state the whole command would have reached. -/
def Obligations.ResetCutsACommandShort : Prop :=
  ∀ (s : State) (w : CmdWord) (flushDelivered : Bool) (rest : List HostEvent),
    s.pending = .cutCommand w flushDelivered :: rest →
    ∃ t u, step s = .next t ∧ step { s with pending := .command w :: rest } = .next u ∧
      t.params = s.params ∧ t.inited = false ∧ t.ledCount = 0#16 ∧ t.bright = s.params.brightRst ∧ t.pin = 0#8 ∧ t.buf = [] ∧
      t.pending = rest ∧
      t.trace.filter isOutput = s.trace.filter isOutput ++
        (if flushDelivered = true then (u.trace.drop s.trace.length).filter isFlush else [])

/-- R34: the state after power-up, for every value of the parameters. -/
def Obligations.PowerOnStateIsTheResetState : Prop :=
  ∀ p : Params, (State.powerOn p).inited = false ∧ (State.powerOn p).ledCount = 0#16 ∧
    (State.powerOn p).bright = p.brightRst ∧ (State.powerOn p).pin = 0#8 ∧ (State.powerOn p).bytes = [] ∧
    (State.powerOn p).trace = []

/-- The invariant holds after power-up of every implementation R6 allows, and in `State.reset`, which takes the recommended
parameters (the model's choice, log entry 1). -/
def Obligations.InvariantHoldsAfterReset : Prop :=
  (∀ p : Params, p.wf → (State.powerOn p).Inv) ∧ State.reset.Inv

/-- R26, R28, R29: every step, whatever the host does, keeps the invariant: LEDCOUNT is 1 to MAXLEDS while INITED is 1 and 0
while it is 0, PIN is 0 before the first INIT, the cells are canonical and inside the 3 × LEDCOUNT bytes. -/
def Obligations.EveryStepKeepsTheInvariant : Prop :=
  ∀ s t : State, s.Inv → step s = .next t → t.Inv

/-- Every 64-bit word in every state, of a run or not, takes a next step that leaves the engine ready for the host's next action
(R230) and emits exactly one response, the last thing it emits (R231), with a STATUS of at most 0x0A (R237); before it comes at
most one flush, of the pin and the whole buffer as they stand after the command (R52, R139). -/
def Obligations.EveryWordGetsOneResponse : Prop :=
  ∀ (s : State) (w : CmdWord) (rest : List HostEvent), s.pending = .command w :: rest →
    ∃ (t : State) (c : BitVec 8) (v : BitVec 32), step s = .next t ∧ t.pending = rest ∧ c.toNat ≤ 0x0A ∧
      (t.trace = s.trace ++ [.response c v] ∨ t.trace = s.trace ++ [.flush t.pin t.bytes, .response c v])

/-- R230: HSLPIX never traps, faults, aborts or halts: the step is total. -/
def Obligations.EveryStepHasANextState : Prop :=
  ∀ s : State, ∃ t, step s = .next t

/-- R232, R237: a command answered with a status of the ignored class (ST_BADOP, ST_RSVD, ST_NOINIT, ST_BADCOUNT, ST_RANGE,
ST_BADARG) has changed nothing and flushed nothing, and its VALUE is 0. -/
def Obligations.IgnoredCommandsChangeNothing : Prop :=
  ∀ (s t : State) (w : CmdWord) (rest : List HostEvent) (c : BitVec 8) (v : BitVec 32),
    s.pending = .command w :: rest → step s = .next t → t.trace.getLast? = some (.response c v) →
    c ∈ [0x01#8, 0x02#8, 0x03#8, 0x04#8, 0x09#8, 0x0A#8] →
    v = 0#32 ∧ t = { s with pending := rest }.answered c 0#32

/-- R139: a command word flushes at most once, after its writes and before its response, and exactly when the table says so: an
ignored word never; SETSEL and SETRNG when they wrote an LED, or always if FLUSH_ON_EMPTY holds (their VALUE is the number of LEDs
written, R133). -/
def Obligations.CommandsFlushPerTheTable : Prop :=
  ∀ (s : State) (w : CmdWord) (rest : List HostEvent), s.pending = .command w :: rest →
    ∃ (t : State) (flushed : Bool) (c : BitVec 8) (v : BitVec 32), step s = .next t ∧
      t.trace = s.trace ++ (if flushed = true then [.flush t.pin t.bytes] else []) ++ [.response c v] ∧
      (flushed = true ↔ ∃ i, decode w = .ok i ∧ s.inited = true ∧
        match i with
        | .setsel _ _ | .setrng _ _ _ => v ≠ 0#32 ∨ s.params.flushOnEmpty = true
        | .setall _ | .clear | .grad _ _ _ _ => True
        | .shift off => off ≠ 0
        | .rotate off => 1 < s.n ∧ off.tmod s.n ≠ 0
        | .nop | .init _ _ | .setbrt _ | .pack _ _ _ | .scale _ | .hsl2rgb _ _ _ | .encrng _ _ | .rdcfg _ | .rdled _
        | .rdbuf _ => False)

/-- R24, R30: INITED, LEDCOUNT and PIN are written by INIT alone, BRIGHT by SETBRT alone, BUF by INIT, SETSEL, SETRNG, SETALL,
CLEAR, GRAD, SHIFT and ROTATE alone; no command changes the parameters or the host's coming actions. -/
def Obligations.EachRegisterHasItsWriters : Prop :=
  ∀ (i : Instr) (s t : State), exec i s = .next t →
    (i.opcode ≠ .init → t.inited = s.inited ∧ t.ledCount = s.ledCount ∧ t.pin = s.pin) ∧
    (i.opcode ≠ .setbrt → t.bright = s.bright) ∧
    (i.opcode ∉ [.init, .setsel, .setrng, .setall, .clear, .grad, .shift, .rotate] → t.buf = s.buf) ∧
    t.params = s.params ∧ t.pending = s.pending

/-- R25: no command word clears INITED. -/
def Obligations.InitedIsClearedOnlyByReset : Prop :=
  ∀ (s t : State) (w : CmdWord) (rest : List HostEvent), s.pending = .command w :: rest → s.inited = true →
    step s = .next t → t.inited = true

/-- R22, R31, R231: nothing in the engine reads a response, a flush or a coming action of the host: a command does the same
whatever they are, and appends the same outputs. -/
def Obligations.OutputsAreNeverRead : Prop :=
  ∀ (i : Instr) (s t : State) (trace : List TraceEvent) (pending : List HostEvent), exec i s = .next t →
    exec i { s with trace := trace, pending := pending } =
      .next { t with trace := trace ++ t.trace.drop s.trace.length, pending := pending }

/-- R236: the nine commands that read or write BUF are ignored with ST_NOINIT while INITED is 0; the other eight are never
answered with ST_NOINIT. -/
def Obligations.BufferCommandsNeedInit : Prop :=
  (∀ (s : State) (i : Instr), s.inited = false →
    i.opcode ∈ [.setsel, .setrng, .setall, .clear, .shift, .rotate, .grad, .rdled, .rdbuf] →
    exec i s = .next (s.answered 0x03#8 0#32)) ∧
  ∀ (s : State) (i : Instr), i.opcode ∈ [.nop, .init, .setbrt, .pack, .scale, .hsl2rgb, .encrng, .rdcfg] →
    ∃ t c v, exec i s = .next t ∧ t.trace = s.trace ++ [.response c v] ∧ c ≠ 0x03#8

/-! ## The buffer primitives (spec/20_memory.md) -/

/-- R45: MemWrite stores its byte inside the buffer and nothing outside; no other address changes and the length stays. -/
def Obligations.MemWriteStoresOneByteOrNothing : Prop :=
  ∀ (s : State) (addr : Nat) (v : BitVec 8), s.Inv →
    (addr < 3 * s.n → (s.memWrite addr v).memRead addr = some v) ∧
    (3 * s.n ≤ addr → s.memWrite addr v = s) ∧
    (∀ x, x ≠ addr → (s.memWrite addr v).memRead x = s.memRead x) ∧
    (s.memWrite addr v).bytes.length = s.bytes.length

/-- R46: WriteLed stores the three scaled channels of an LED inside the strip and yields 1; it leaves everything alone outside
and yields 0. -/
def Obligations.WriteLedWritesAWholeLedOrNothing : Prop :=
  ∀ (s : State) (i : Int) (color : Color), s.Inv →
    (0 ≤ i → i < s.n → (s.writeLed i color).2 = 1 ∧ s.sameButBuf (s.writeLed i color).1 ∧
      (s.writeLed i color).1.trace = s.trace ∧
      (s.writeLed i color).1.memRead (3 * i.toNat) = some (scaleCh (greenOf color) s.bright) ∧
      (s.writeLed i color).1.memRead (3 * i.toNat + 1) = some (scaleCh (redOf color) s.bright) ∧
      (s.writeLed i color).1.memRead (3 * i.toNat + 2) = some (scaleCh (blueOf color) s.bright) ∧
      ∀ a : Nat, a / 3 ≠ i.toNat → (s.writeLed i color).1.memRead a = s.memRead a) ∧
    (i < 0 ∨ (s.n : Int) ≤ i → s.writeLed i color = (s, 0))

/-! ## ColorCodec (spec/40_colorcodec.md) -/

/-- R101: PACK answers the three channels as one Color and changes nothing. -/
def Obligations.PackAssemblesTheChannels : Prop :=
  ∀ (r g b : BitVec 8) (s : State), ∃ v : BitVec 32,
    exec (.pack r g b) s = .next (s.answered 0x00#8 v) ∧ v.toNat = r.toNat * 65536 + g.toNat * 256 + b.toNat

/-- R103, R105: SCALE answers the three channels scaled by BRIGHT in the order green, red, blue and changes nothing. -/
def Obligations.ScaleAnswersTheStoredTriplet : Prop :=
  ∀ (color : Color) (s : State), ∃ v : BitVec 32,
    exec (.scale color) s = .next (s.answered 0x00#8 v) ∧
      v.toNat = (color.toNat / 256 % 256 * s.bright.toNat + 127) / 255 * 65536 +
        (color.toNat / 65536 * s.bright.toNat + 127) / 255 * 256 + (color.toNat % 256 * s.bright.toNat + 127) / 255

/-- R106 to R113: HSL2RGB answers the Color of the eight steps in integer arithmetic and changes nothing; BRIGHT plays no
part. The formulas of G1 to G4 are the spec's from general knowledge (log entry 7). -/
def Obligations.Hsl2rgbFollowsTheEightSteps : Prop :=
  ∀ (hue : BitVec 12) (sat lum : BitVec 8) (s : State), ∃ v : BitVec 32,
    exec (.hsl2rgb hue sat lum) s = .next (s.answered 0x00#8 v) ∧
      (let h : Int := (hue.toNat : Int) % 360
       let sc : Int := min (sat.toNat : Int) 99
       let l : Int := min (lum.toNat : Int) 99
       let c : Int := (100 - |2 * l - 100|) * sc * 256 / 10000
       let h1 : Int := h / 60
       let h2 : Int := (h - 60 * h1) * 256 / 60
       let t : Int := |(h1 % 2 * 256 + h2) - 256|
       let x : Int := c * (256 - t) / 256
       let rgb : Int × Int × Int :=
         if h1 = 0 then (c, x, 0) else if h1 = 1 then (x, c, 0) else if h1 = 2 then (0, c, x)
         else if h1 = 3 then (0, x, c) else if h1 = 4 then (x, 0, c) else (c, 0, x)
       let m : Int := (l * 2 * 256 / 100 - c) / 2
       (v.toNat : Int) = (rgb.1 + m) % 256 * 65536 + (rgb.2.1 + m) % 256 * 256 + (rgb.2.2 + m) % 256)

/-- R114: ENCRNG answers the packed LedRange, or (ST_BADARG, 0) when FROM is 0; it changes nothing. -/
def Obligations.EncrngAnswersThePackedRange : Prop :=
  ∀ (first : BitVec 16) (last8 : BitVec 8) (s : State),
    (first.toNat = 0 → exec (.encrng first last8) s = .next (s.answered 0x0A#8 0#32)) ∧
    (1 ≤ first.toNat → ∃ v : BitVec 32, exec (.encrng first last8) s = .next (s.answered 0x00#8 v) ∧
      v.toNat = (first.toNat - 1) * 65536 + 0x0200 + last8.toNat)

/-- R103, R104: `scale_ch(v, B)` is v × B / 255 rounded to the nearest integer, and no tie occurs. -/
def Obligations.ScaleRoundsToNearestAndNoTieOccurs : Prop :=
  ∀ v b : BitVec 8,
    2 * 255 * (scaleCh v b).toNat < 2 * (v.toNat * b.toNat) + 255 ∧
    2 * (v.toNat * b.toNat) < 2 * 255 * (scaleCh v b).toNat + 255 ∧
    ∀ k : Nat, 2 * (v.toNat * b.toNat) ≠ 255 * (2 * k + 1)

/-- R105: full brightness is the identity, zero blanks, the result is bounded by both arguments, symmetric and monotone. -/
def Obligations.ScaleIsBoundedSymmetricAndMonotone : Prop :=
  ∀ v b : BitVec 8, scaleCh v 255#8 = v ∧ scaleCh v 0#8 = 0#8 ∧ scaleCh v b = scaleCh b v ∧
    (scaleCh v b).toNat ≤ min v.toNat b.toNat ∧
    ∀ u : BitVec 8, u.toNat ≤ v.toNat → (scaleCh u b).toNat ≤ (scaleCh v b).toNat

/-- R118, R120: with conditioned inputs the chroma is at most 253, the offset is 0 to 253 and every channel sum is 0 to 255, so
the mask never changes a value. This holds of the formulas the spec supplies from general knowledge (G1 to G4, log entry 7). -/
def Obligations.HslMaskNeverChangesAValue : Prop :=
  ∀ h s l : Nat, h < 360 → s ≤ 99 → l ≤ 99 →
    let c := hslChroma s l
    let x := hslSecond c h
    let m := hslOffset c l
    c ≤ 253 ∧ x ≤ c ∧ 0 ≤ m ∧ m ≤ 253 ∧
      ∀ v ∈ [(hslLut (hslSector h) c x).1, (hslLut (hslSector h) c x).2.1, (hslLut (hslSector h) c x).2.2],
        0 ≤ (v : Int) + m ∧ (v : Int) + m ≤ 255 ∧ ((hslChannel v m).toNat : Int) = (v : Int) + m

/-- R115: the three anchor colours. The values rest on the formulas the spec supplies from general knowledge (G1 to G4, log
entry 7). -/
def Obligations.HslAnchorsHaveTheirDominantChannel : Prop :=
  hsl2rgb 0 99 50 = 0xFE0101#24 ∧ hsl2rgb 120 99 50 = 0x01FE01#24 ∧ hsl2rgb 240 99 50 = 0x0101FE#24

/-! ## PixelBuffer (spec/41_pixelbuffer.md) -/

/-- R131: INIT records pin and count, makes the buffer 3 × COUNT zeroes, keeps BRIGHT and does not flush; a COUNT of 0 or above
MAXLEDS changes nothing and is answered (ST_BADCOUNT, 0). -/
def Obligations.InitCreatesTheStrip : Prop :=
  ∀ (pin : BitVec 8) (count : BitVec 16) (s : State),
    (1 ≤ count.toNat → count.toNat ≤ s.params.maxLeds.toNat →
      ∃ t, exec (.init pin count) s = .next t ∧ t.inited = true ∧ t.ledCount = count ∧ t.pin = pin ∧ t.bright = s.bright ∧
        t.params = s.params ∧ t.pending = s.pending ∧ t.trace = s.trace ++ [.response 0x00#8 0#32] ∧
        ∀ a : Nat, t.memRead a = if a < 3 * count.toNat then some 0#8 else none) ∧
    (count.toNat = 0 ∨ s.params.maxLeds.toNat < count.toNat →
      exec (.init pin count) s = .next (s.answered 0x04#8 0#32))

/-- R132: SETBRT stores BRIGHT, in every state, and changes nothing else: no byte of BUF, no flush. -/
def Obligations.SetbrtStoresTheBrightness : Prop :=
  ∀ (val : BitVec 8) (s : State),
    exec (.setbrt val) s = .next { s with bright := val, trace := s.trace ++ [.response 0x00#8 0#32] }

/-- R133, R134: SETSEL writes the scaled colour to the LEDs of the selected interval that lie in the strip, flushes if it wrote
one or FLUSH_ON_EMPTY holds, and answers the status and the number written; every other byte and every register stay. -/
def Obligations.SetselWritesTheSelectedLeds : Prop :=
  ∀ (sel : BitVec 32) (color : Color) (s : State), s.Inv → s.inited = true →
    ∃ (t : State) (written : Nat), exec (.setsel sel color) s = .next t ∧
      s.rangeWritten (decodeSel sel).f0 (decodeSel sel).t0 color t written ∧
      t.trace = s.trace ++
        (if 0 < written ∨ s.params.flushOnEmpty = true then [.flush s.pin t.bytes] else []) ++
        [.response
          (if (decodeSel sel).kind = .malformed then 0x05#8
           else if (decodeSel sel).t0 < (decodeSel sel).f0 then 0x06#8
           else if (written : Int) < (decodeSel sel).t0 - (decodeSel sel).f0 + 1 then 0x07#8 else 0x00#8)
          (BitVec.ofNat 32 written)]

/-- R133, R135: SETRNG does the same for the 1-based interval [FROM, TO]. -/
def Obligations.SetrngWritesTheIntervalsLeds : Prop :=
  ∀ (first last : BitVec 16) (color : Color) (s : State), s.Inv → s.inited = true →
    ∃ (t : State) (written : Nat), exec (.setrng first last color) s = .next t ∧
      s.rangeWritten ((first.toNat : Int) - 1) ((last.toNat : Int) - 1) color t written ∧
      t.trace = s.trace ++
        (if 0 < written ∨ s.params.flushOnEmpty = true then [.flush s.pin t.bytes] else []) ++
        [.response
          (if last.toNat < first.toNat then 0x06#8
           else if (written : Int) < (last.toNat : Int) - first.toNat + 1 then 0x07#8 else 0x00#8)
          (BitVec.ofNat 32 written)]

/-- R136: SETALL writes the scaled colour to every LED, flushes once and answers (ST_OK, n); every register stays. -/
def Obligations.SetallWritesEveryLed : Prop :=
  ∀ (color : Color) (s : State), s.Inv → s.inited = true →
    ∃ t, exec (.setall color) s = .next t ∧ s.flushedAs t 0x00#8 (BitVec.ofNat 32 s.n) ∧
      ∀ i < s.n, t.holdsLed i (scaleColor color s.bright)

/-- R137: CLEAR makes every byte 0x00 whatever the brightness, flushes once and answers (ST_OK, n); every register stays. -/
def Obligations.ClearBlanksTheStrip : Prop :=
  ∀ s : State, s.Inv → s.inited = true →
    ∃ t, exec .clear s = .next t ∧ s.flushedAs t 0x00#8 (BitVec.ofNat 32 s.n) ∧
      ∀ a : Nat, t.memRead a = if a < 3 * s.n then some 0#8 else none

/-- R138: for 1 ≤ from and to ≤ 255, SETSEL with the packed range and SETRNG with the two fields are the same command. -/
def Obligations.PackedAndTwoFieldRangesAgree : Prop :=
  ∀ (first : BitVec 16) (last8 : BitVec 8) (color : Color) (s : State), 1 ≤ first.toNat →
    exec (.setsel (encodeRange first last8) color) s = exec (.setrng first (last8.setWidth 16) color) s

/-- R105: SCALE foretells what RDLED answers after the colour is written to an LED. -/
def Obligations.ScaleForetellsTheReadBack : Prop :=
  ∀ (k : BitVec 16) (color : Color) (s : State), s.Inv → s.inited = true → 1 ≤ k.toNat → k.toNat ≤ s.n →
    ∃ (t : State) (v : BitVec 32), exec (.setrng k k color) s = .next t ∧
      exec (.scale color) s = .next (s.answered 0x00#8 v) ∧ exec (.rdled k) t = .next (t.answered 0x00#8 v)

/-- R140, R266: the moves and the read-backs deliver the bytes as stored: they do the same under every brightness. -/
def Obligations.BrightnessIsNotRetroactive : Prop :=
  ∀ (i : Instr) (s t : State) (b : BitVec 8), i.opcode ∈ [.shift, .rotate, .rdled, .rdbuf] → exec i s = .next t →
    exec i { s with bright := b } = .next { t with bright := b }

/-! ## BufferTransform (spec/42_transform.md) -/

/-- R172: SHIFT by 0 does nothing and does not flush; by OFF it moves every LED, blanks the vacated ones, flushes once and
answers (ST_OK, 0); every register stays. -/
def Obligations.ShiftDisplacesTheLeds : Prop :=
  ∀ (off : Int) (s : State), s.Inv → s.inited = true →
    (off = 0 → exec (.shift off) s = .next (s.answered 0x08#8 0#32)) ∧
    (off ≠ 0 → ∃ t, exec (.shift off) s = .next t ∧ s.flushedAs t 0x00#8 0#32 ∧
      ∀ i < s.n, ∀ k < 3, t.memRead (3 * i + k) =
        if 0 ≤ (i : Int) - off ∧ (i : Int) - off < s.n then s.memRead (3 * ((i : Int) - off).toNat + k) else some 0#8)

/-- R173: an offset of magnitude n or more, in either direction, blanks the whole buffer and flushes. -/
def Obligations.ShiftByTheLengthOrMoreBlanks : Prop :=
  ∀ (off : Int) (s : State), s.Inv → s.inited = true → (s.n : Int) ≤ |off| →
    ∃ t, exec (.shift off) s = .next t ∧ s.flushedAs t 0x00#8 0#32 ∧ ∀ a < 3 * s.n, t.memRead a = some 0#8

/-- R177: what SHIFT k and then SHIFT −k leave: the LEDs that never left the strip are restored and the others are blank. -/
def Obligations.ShiftThereAndBackLosesTheEnd : Prop :=
  ∀ (k : Int) (s : State), s.Inv → s.inited = true → k ≠ 0 →
    ∃ t u, exec (.shift k) s = .next t ∧ exec (.shift (-k)) t = .next u ∧
      (0 < k → k < s.n → ∀ i < s.n, u.led i = if (i : Int) < (s.n : Int) - k then s.led i else Led.blank) ∧
      (-(s.n : Int) < k → k < 0 → ∀ i < s.n, u.led i = if (i : Int) < -k then Led.blank else s.led i) ∧
      ((s.n : Int) ≤ |k| → ∀ i < s.n, u.led i = Led.blank)

/-- R174: ROTATE does nothing and does not flush when n ≤ 1 or the reduced offset is 0; otherwise it moves every LED circularly,
flushes once and answers (ST_OK, 0); every register stays. -/
def Obligations.RotateMovesTheLedsCircularly : Prop :=
  ∀ (off : Int) (s : State), s.Inv → s.inited = true →
    (s.n ≤ 1 ∨ off.tmod s.n = 0 → exec (.rotate off) s = .next (s.answered 0x08#8 0#32)) ∧
    (1 < s.n → off.tmod s.n ≠ 0 → ∃ t, exec (.rotate off) s = .next t ∧ s.flushedAs t 0x00#8 0#32 ∧
      ∀ i < s.n, ∀ k < 3, t.memRead (3 * i + k) = s.memRead (3 * (((i : Int) - off.tmod s.n) % s.n).toNat + k))

/-- R175: reducing the offset by the non-negative remainder gives the same command. -/
def Obligations.RotateDependsOnTheOffsetModuloTheLength : Prop :=
  ∀ (off : Int) (s : State), 0 < s.n → exec (.rotate off) s = exec (.rotate (off % s.n)) s

/-- R176: ROTATE by OFF and then by −OFF restores the buffer and leaves every register. -/
def Obligations.RotateIsUndoneByItsNegative : Prop :=
  ∀ (off : Int) (s : State), s.Inv → s.inited = true →
    ∃ t u, exec (.rotate off) s = .next t ∧ exec (.rotate (-off)) t = .next u ∧ s.sameTuple u

/-! ## GradientFill (spec/43_gradient.md) -/

/-- R191 to R196: GRAD writes the hue of each LED of the conditioned span through the brightness multiplier, drops the LED past
the strip, flushes once always, and answers ST_OK or ST_CLIPPED with the number written; every other byte and every register
stay. The colours come from the converter, whose formulas G1 to G4 are the spec's from general knowledge, and the hue of a
one-LED gradient is the spec's choice among two readings of its source, R194 (log entry 7). -/
def Obligations.GradFillsTheSpan : Prop :=
  ∀ (start stop : BitVec 16) (hue1 hue2 : BitVec 12) (s : State), s.Inv → s.inited = true →
    let lo : Int := min (start.toNat : Int) stop.toNat
    let hi : Int := max (start.toNat : Int) stop.toNat
    let s0 : Int := min (max (lo - 1) 0) s.n
    let e0 : Int := min (max (hi - 1) 0) s.n
    let steps : Int := e0 - s0 + 1
    let hd : Int := ((hue2.toNat : Int) + 360 - hue1.toNat) % 360
    let hs : Int := hd * 100 / steps
    ∃ (t : State) (written : Nat), exec (.grad start stop hue1 hue2) s = .next t ∧ s.sameButBuf t ∧
      (written : Int) = (if e0 = s.n then steps - 1 else steps) ∧
      t.trace = s.trace ++ [.flush s.pin t.bytes,
        .response (if (written : Int) = steps then 0x00#8 else 0x07#8) (BitVec.ofNat 32 written)] ∧
      (∀ i : Nat, i < s.n → s0 ≤ i → (i : Int) ≤ e0 →
        t.holdsLed i (scaleColor
          (hsl2rgb
            (if steps = 1 then (hue1.toNat : Int) + hs
             else if (i : Int) = s0 then (hue1.toNat : Int)
             else if (i : Int) = e0 then (hue2.toNat : Int)
             else ((hue1.toNat : Int) * 100 + ((i : Int) - s0) * hs) / 100).toNat 100 50) s.bright)) ∧
      (∀ a : Nat, ¬(s0 ≤ ((a / 3 : Nat) : Int) ∧ ((a / 3 : Nat) : Int) ≤ e0) → t.memRead a = s.memRead a)

/-- R192, R193, R197: the bounds of the gradient's quantities, for every operand and every strip. -/
def Obligations.GradQuantitiesStayInBounds : Prop :=
  ∀ (n : BitVec 16) (start stop : BitVec 16) (hue1 hue2 : BitVec 12),
    let g := gradSpan n.toNat start.toNat stop.toNat
    let steps := gradSteps g
    let hd := gradDistance hue1.toNat hue2.toNat
    let hs := gradHueStep hue1.toNat hue2.toNat steps
    0 ≤ g.s0 ∧ g.s0 ≤ g.e0 ∧ g.e0 ≤ n.toNat ∧ 1 ≤ steps ∧ steps ≤ (n.toNat : Int) + 1 ∧ 0 ≤ hd ∧ hd ≤ 359 ∧ 0 ≤ hs ∧ hs ≤ 35900 ∧
      ∀ i : Int, 1 ≤ i → i ≤ steps - 2 →
        (hue1.toNat : Int) * 100 + i * hs < 2 ^ 32 ∧
        (hue1.toNat : Int) ≤ ((hue1.toNat : Int) * 100 + i * hs) / 100 ∧
        ((hue1.toNat : Int) * 100 + i * hs) / 100 ≤ (hue1.toNat : Int) + hd

/-- R198 (1): with equal hues every LED of the span inside the strip holds that hue's colour, scaled. -/
def Obligations.GradOfEqualHuesIsOneColour : Prop :=
  ∀ (start stop : BitVec 16) (hue : BitVec 12) (s : State), s.Inv → s.inited = true → 1 ≤ start.toNat →
    start.toNat ≤ stop.toNat →
    ∃ t, exec (.grad start stop hue hue) s = .next t ∧
      ∀ i : Nat, i < s.n → start.toNat ≤ i + 1 → i + 1 ≤ stop.toNat →
        t.holdsLed i (scaleColor (hsl2rgb hue.toNat 100 50) s.bright)

/-! ## System and read-back (spec/44_system.md) -/

/-- R211: NOP answers (ST_OK, 0) and changes nothing, initialised or not; the all-zero word is NOP. -/
def Obligations.NopOnlyAnswers : Prop :=
  (∀ s : State, exec .nop s = .next (s.answered 0x00#8 0#32)) ∧ decode 0#64 = .ok .nop

/-- R212: RDCFG answers each of the six registers, zero-extended, in every state, and ST_RANGE for the reserved numbers; it
changes nothing. -/
def Obligations.RdcfgAnswersTheRegister : Prop :=
  ∀ s : State,
    exec (.rdcfg 0#8) s = .next (s.answered 0x00#8 (if s.inited = true then 1#32 else 0#32)) ∧
    exec (.rdcfg 1#8) s = .next (s.answered 0x00#8 (s.ledCount.setWidth 32)) ∧
    exec (.rdcfg 2#8) s = .next (s.answered 0x00#8 (s.bright.setWidth 32)) ∧
    exec (.rdcfg 3#8) s = .next (s.answered 0x00#8 (s.pin.setWidth 32)) ∧
    (∃ v : BitVec 32, exec (.rdcfg 4#8) s = .next (s.answered 0x00#8 v) ∧ v.toNat = 3 * s.ledCount.toNat) ∧
    exec (.rdcfg 5#8) s = .next (s.answered 0x00#8 (s.params.maxLeds.setWidth 32)) ∧
    ∀ reg : BitVec 8, 6 ≤ reg.toNat → exec (.rdcfg reg) s = .next (s.answered 0x09#8 0#32)

/-- R47, R213: RDLED answers the three stored bytes of LED IDX, green in the highest, or (ST_RANGE, 0) outside the strip; it
changes nothing. -/
def Obligations.RdledAnswersTheStoredTriplet : Prop :=
  ∀ (idx : BitVec 16) (s : State), s.inited = true →
    (idx.toNat = 0 ∨ s.n < idx.toNat → exec (.rdled idx) s = .next (s.answered 0x09#8 0#32)) ∧
    (1 ≤ idx.toNat → idx.toNat ≤ s.n → ∃ (v : BitVec 32) (g r b : BitVec 8),
      exec (.rdled idx) s = .next (s.answered 0x00#8 v) ∧ s.memRead (3 * (idx.toNat - 1)) = some g ∧
      s.memRead (3 * (idx.toNat - 1) + 1) = some r ∧ s.memRead (3 * (idx.toNat - 1) + 2) = some b ∧
      v.toNat = g.toNat * 65536 + r.toNat * 256 + b.toNat)

/-- R44, R214: RDBUF answers the byte at ADDR, zero-extended, or (ST_RANGE, 0) at and past 3n; it changes nothing. -/
def Obligations.RdbufAnswersTheByte : Prop :=
  ∀ (addr : BitVec 24) (s : State), s.inited = true →
    (addr.toNat < 3 * s.n → ∃ b : BitVec 8, s.memRead addr.toNat = some b ∧
      exec (.rdbuf addr) s = .next (s.answered 0x00#8 (b.setWidth 32))) ∧
    (3 * s.n ≤ addr.toNat → s.memRead addr.toNat = none ∧ exec (.rdbuf addr) s = .next (s.answered 0x09#8 0#32))
end

