-- ==== Sys2Proof/Laws/Memory.lean ====
section
/-! SUPPORT. The laws of the cells: read after write, and the canonical form kept by every operation. -/

namespace Sys2Proof.Machine

@[simp] theorem Memory.byteAt_nil (a : Nat) : Memory.byteAt [] a = 0#8 := rfl

theorem Memory.byteAt_cons (b : Nat) (v : Byte) (m : Memory) (a : Nat) :
    Memory.byteAt ((b, v) :: m) a = if b = a then v else Memory.byteAt m a := rfl

theorem Memory.wf_nil : Memory.wf [] := ⟨List.Pairwise.nil, by simp⟩

theorem Memory.wf_cons {b : Nat} {v : Byte} {m : Memory} :
    Memory.wf ((b, v) :: m) ↔ (∀ c ∈ m, b < c.1) ∧ v ≠ 0#8 ∧ Memory.wf m := by
  constructor
  · rintro ⟨hp, hz⟩
    exact ⟨(List.pairwise_cons.1 hp).1, hz (b, v) (by simp), (List.pairwise_cons.1 hp).2,
      fun c hc => hz c (List.mem_cons_of_mem _ hc)⟩
  · rintro ⟨h1, h2, h3⟩
    refine ⟨List.pairwise_cons.2 ⟨h1, h3.1⟩, fun c hc => ?_⟩
    rcases List.mem_cons.1 hc with rfl | hc
    · exact h2
    · exact h3.2 c hc

/-- An address that is listed nowhere reads 0x00. -/
theorem Memory.byteAt_eq_zero_of_not_listed {m : Memory} {a : Nat} (h : ∀ c ∈ m, c.1 ≠ a) : m.byteAt a = 0#8 := by
  induction m with
  | nil => rfl
  | cons c m ih =>
    obtain ⟨b, v⟩ := c
    rw [Memory.byteAt_cons, if_neg (h (b, v) (by simp))]
    exact ih fun c hc => h c (List.mem_cons_of_mem _ hc)

/-- A store changes no other byte, whatever form the cells have. -/
theorem Memory.byteAt_put_of_ne {m : Memory} {a x : Nat} {v : Byte} (h : x ≠ a) :
    (m.put a v).byteAt x = m.byteAt x := by
  induction m with
  | nil =>
    simp only [Memory.put]
    split <;> simp [Memory.byteAt, h.symm]
  | cons c m ih =>
    obtain ⟨b, w⟩ := c
    simp only [Memory.put]
    split
    · split <;> simp [Memory.byteAt, h.symm]
    · split
      · subst b
        split <;> simp [Memory.byteAt, h.symm]
      · simp [Memory.byteAt, ih]

/-- Read after write to the same place, in canonical cells. -/
theorem Memory.byteAt_put_self {m : Memory} (hm : m.wf) (a : Nat) (v : Byte) : (m.put a v).byteAt a = v := by
  induction m with
  | nil =>
    simp only [Memory.put]
    split <;> simp_all [Memory.byteAt]
  | cons c m ih =>
    obtain ⟨b, w⟩ := c
    obtain ⟨hlt, -, hwf⟩ := Memory.wf_cons.1 hm
    simp only [Memory.put]
    split
    · rename_i hab
      split
      · rename_i hv
        rw [hv]
        refine Memory.byteAt_eq_zero_of_not_listed fun c hc => ?_
        rcases List.mem_cons.1 hc with rfl | hc
        · simp; omega
        · have := hlt c hc; omega
      · simp [Memory.byteAt]
    · split
      · subst b
        split
        · rename_i hv
          rw [hv]
          exact Memory.byteAt_eq_zero_of_not_listed fun c hc => by have := hlt c hc; omega
        · simp [Memory.byteAt]
      · rename_i h1 h2
        rw [Memory.byteAt_cons, if_neg (Ne.symm h2)]
        exact ih hwf

/-- What a store leaves at each address, in canonical cells. -/
theorem Memory.byteAt_put {m : Memory} (hm : m.wf) (a x : Nat) (v : Byte) :
    (m.put a v).byteAt x = if x = a then v else m.byteAt x := by
  split
  · subst x; exact Memory.byteAt_put_self hm a v
  · exact Memory.byteAt_put_of_ne ‹_›

/-- The cells after a store are cells that were there or the new one. -/
theorem Memory.mem_put {m : Memory} {a : Nat} {v : Byte} {c : Host.Cell} (h : c ∈ m.put a v) :
    c ∈ m ∨ (c = (a, v) ∧ v ≠ 0#8) := by
  induction m with
  | nil =>
    simp only [Memory.put] at h
    split at h <;> simp_all
  | cons d m ih =>
    obtain ⟨b, w⟩ := d
    simp only [Memory.put] at h
    split at h
    · split at h <;> simp_all; tauto
    · split at h
      · split at h <;> simp_all; tauto
      · rcases List.mem_cons.1 h with rfl | h
        · simp
        · rcases ih h with h | h <;> simp_all

/-- A store keeps the canonical form. -/
theorem Memory.wf_put {m : Memory} (hm : m.wf) (a : Nat) (v : Byte) : (m.put a v).wf := by
  induction m with
  | nil =>
    simp only [Memory.put]
    split
    · exact Memory.wf_nil
    · exact Memory.wf_cons.2 ⟨by simp, ‹_›, Memory.wf_nil⟩
  | cons c m ih =>
    obtain ⟨b, w⟩ := c
    obtain ⟨hlt, hw, hwf⟩ := Memory.wf_cons.1 hm
    simp only [Memory.put]
    split
    · split
      · exact hm
      · refine Memory.wf_cons.2 ⟨fun c hc => ?_, ‹_›, hm⟩
        rcases List.mem_cons.1 hc with rfl | hc
        · simpa
        · have := hlt c hc; omega
    · split
      · subst b
        split
        · exact hwf
        · exact Memory.wf_cons.2 ⟨hlt, ‹_›, hwf⟩
      · refine Memory.wf_cons.2 ⟨fun c hc => ?_, hw, ih hwf⟩
        rcases Memory.mem_put hc with hc | ⟨rfl, -⟩
        · exact hlt c hc
        · simp; omega

/-- The cells of a byte list lie at and after its first address, and inside its length. -/
theorem Memory.mem_ofBytes {bs : List Byte} {a : Nat} {c : Host.Cell} (h : c ∈ Memory.ofBytes a bs) :
    a ≤ c.1 ∧ c.1 < a + bs.length ∧ c.2 ≠ 0#8 := by
  induction bs generalizing a with
  | nil => simp [Memory.ofBytes] at h
  | cons v bs ih =>
    simp only [Memory.ofBytes] at h
    split at h
    · obtain ⟨h1, h2, h3⟩ := ih h
      exact ⟨by omega, by simp; omega, h3⟩
    · rcases List.mem_cons.1 h with rfl | h
      · simpa
      · obtain ⟨h1, h2, h3⟩ := ih h
        exact ⟨by omega, by simp; omega, h3⟩

/-- The cells of a byte list are canonical. -/
theorem Memory.wf_ofBytes (bs : List Byte) (a : Nat) : (Memory.ofBytes a bs).wf := by
  induction bs generalizing a with
  | nil => exact Memory.wf_nil
  | cons v bs ih =>
    simp only [Memory.ofBytes]
    split
    · exact ih _
    · exact Memory.wf_cons.2 ⟨fun c hc => by have := Memory.mem_ofBytes hc; omega, ‹_›, ih _⟩

/-- What the cells of a byte list read as. -/
theorem Memory.byteAt_ofBytes (bs : List Byte) (a k : Nat) :
    (Memory.ofBytes a bs).byteAt (a + k) = bs.getD k 0#8 := by
  induction bs generalizing a k with
  | nil => simp [Memory.ofBytes]
  | cons v bs ih =>
    simp only [Memory.ofBytes]
    cases k with
    | zero =>
      split
      · rename_i hv
        simp only [Nat.add_zero, List.getD_cons_zero, hv]
        exact Memory.byteAt_eq_zero_of_not_listed fun c hc => by have := Memory.mem_ofBytes hc; omega
      · simp [Memory.byteAt]
    | succ k =>
      have h : a + (k + 1) = (a + 1) + k := by omega
      split
      · rw [h, ih]; simp
      · rw [Memory.byteAt_cons, if_neg (by omega), h, ih]; simp

/-- Canonical cells that read alike everywhere are equal: equal memories are equal data. -/
theorem Memory.ext_of_wf {m p : Memory} (hm : m.wf) (hp : p.wf) (h : ∀ a, m.byteAt a = p.byteAt a) : m = p := by
  induction m generalizing p with
  | nil =>
    cases p with
    | nil => rfl
    | cons d p =>
      obtain ⟨b, w⟩ := d
      have := h b
      simp [Memory.byteAt] at this
      exact absurd this.symm (Memory.wf_cons.1 hp).2.1
  | cons c m ih =>
    obtain ⟨a, v⟩ := c
    obtain ⟨hlt, hv, hwf⟩ := Memory.wf_cons.1 hm
    cases p with
    | nil =>
      have := h a
      simp [Memory.byteAt] at this
      exact absurd this hv
    | cons d p =>
      obtain ⟨b, w⟩ := d
      obtain ⟨hlt', hw, hwf'⟩ := Memory.wf_cons.1 hp
      have hab : a = b := by
        rcases Nat.lt_trichotomy a b with hab | hab | hab
        · have := h a
          rw [Memory.byteAt_cons, if_pos rfl, Memory.byteAt_eq_zero_of_not_listed] at this
          · exact absurd this hv
          · intro c hc
            rcases List.mem_cons.1 hc with rfl | hc
            · simp; omega
            · have := hlt' c hc; omega
        · exact hab
        · have := h b
          rw [Memory.byteAt_cons (b := b), if_pos rfl, Memory.byteAt_eq_zero_of_not_listed] at this
          · exact absurd this.symm hw
          · intro c hc
            rcases List.mem_cons.1 hc with rfl | hc
            · simp; omega
            · have := hlt c hc; omega
      subst b
      have hvw : v = w := by
        have := h a
        simpa [Memory.byteAt] using this
      subst w
      have hmp : m = p := by
        refine ih hwf hwf' fun x => ?_
        by_cases hx : x = a
        · subst x
          rw [Memory.byteAt_eq_zero_of_not_listed fun c hc => by have := hlt c hc; omega,
            Memory.byteAt_eq_zero_of_not_listed fun c hc => by have := hlt' c hc; omega]
        · have := h x
          simpa [Memory.byteAt, Ne.symm hx] using this
      rw [hmp]

end Sys2Proof.Machine
end

