-- ==== Sys2Proof/Laws/State.lean ====
section
/-! SUPPORT. One lemma per field per update of the state, so that no proof unfolds a record update. -/

namespace Sys2Proof.Machine

/-! ## Updates that only write the trace -/

@[simp] theorem State.flush_params (s : State) : s.flush.params = s.params := rfl
@[simp] theorem State.flush_inited (s : State) : s.flush.inited = s.inited := rfl
@[simp] theorem State.flush_ledCount (s : State) : s.flush.ledCount = s.ledCount := rfl
@[simp] theorem State.flush_bright (s : State) : s.flush.bright = s.bright := rfl
@[simp] theorem State.flush_pin (s : State) : s.flush.pin = s.pin := rfl
@[simp] theorem State.flush_buf (s : State) : s.flush.buf = s.buf := rfl
@[simp] theorem State.flush_pending (s : State) : s.flush.pending = s.pending := rfl
@[simp] theorem State.flush_trace (s : State) : s.flush.trace = s.trace ++ [.flush s.pin s.bytes] := rfl

@[simp] theorem State.respond_params (s : State) (st : Status) (v : BitVec 32) : (s.respond st v).params = s.params := rfl
@[simp] theorem State.respond_inited (s : State) (st : Status) (v : BitVec 32) : (s.respond st v).inited = s.inited := rfl
@[simp] theorem State.respond_ledCount (s : State) (st : Status) (v : BitVec 32) : (s.respond st v).ledCount = s.ledCount := rfl
@[simp] theorem State.respond_bright (s : State) (st : Status) (v : BitVec 32) : (s.respond st v).bright = s.bright := rfl
@[simp] theorem State.respond_pin (s : State) (st : Status) (v : BitVec 32) : (s.respond st v).pin = s.pin := rfl
@[simp] theorem State.respond_buf (s : State) (st : Status) (v : BitVec 32) : (s.respond st v).buf = s.buf := rfl
@[simp] theorem State.respond_pending (s : State) (st : Status) (v : BitVec 32) : (s.respond st v).pending = s.pending := rfl
@[simp] theorem State.respond_trace (s : State) (st : Status) (v : BitVec 32) : (s.respond st v).trace = s.trace ++ [.response (statusCode st) v] := rfl

@[simp] theorem State.ignore_params (s : State) (st : Status) : (s.ignore st).params = s.params := rfl
@[simp] theorem State.ignore_inited (s : State) (st : Status) : (s.ignore st).inited = s.inited := rfl
@[simp] theorem State.ignore_ledCount (s : State) (st : Status) : (s.ignore st).ledCount = s.ledCount := rfl
@[simp] theorem State.ignore_bright (s : State) (st : Status) : (s.ignore st).bright = s.bright := rfl
@[simp] theorem State.ignore_pin (s : State) (st : Status) : (s.ignore st).pin = s.pin := rfl
@[simp] theorem State.ignore_buf (s : State) (st : Status) : (s.ignore st).buf = s.buf := rfl
@[simp] theorem State.ignore_pending (s : State) (st : Status) : (s.ignore st).pending = s.pending := rfl
@[simp] theorem State.ignore_trace (s : State) (st : Status) : (s.ignore st).trace = s.trace ++ [.response (statusCode st) 0#32] := rfl

@[simp] theorem State.answered_params (s : State) (c : Byte) (v : BitVec 32) : (s.answered c v).params = s.params := rfl
@[simp] theorem State.answered_inited (s : State) (c : Byte) (v : BitVec 32) : (s.answered c v).inited = s.inited := rfl
@[simp] theorem State.answered_ledCount (s : State) (c : Byte) (v : BitVec 32) : (s.answered c v).ledCount = s.ledCount := rfl
@[simp] theorem State.answered_bright (s : State) (c : Byte) (v : BitVec 32) : (s.answered c v).bright = s.bright := rfl
@[simp] theorem State.answered_pin (s : State) (c : Byte) (v : BitVec 32) : (s.answered c v).pin = s.pin := rfl
@[simp] theorem State.answered_buf (s : State) (c : Byte) (v : BitVec 32) : (s.answered c v).buf = s.buf := rfl
@[simp] theorem State.answered_pending (s : State) (c : Byte) (v : BitVec 32) : (s.answered c v).pending = s.pending := rfl
@[simp] theorem State.answered_trace (s : State) (c : Byte) (v : BitVec 32) : (s.answered c v).trace = s.trace ++ [.response c v] := rfl

/-! ## Updates that only write BUF -/

@[simp] theorem State.memWrite_params (s : State) (a : Nat) (v : Byte) : (s.memWrite a v).params = s.params := by
  unfold State.memWrite; split <;> rfl
@[simp] theorem State.memWrite_inited (s : State) (a : Nat) (v : Byte) : (s.memWrite a v).inited = s.inited := by
  unfold State.memWrite; split <;> rfl
@[simp] theorem State.memWrite_ledCount (s : State) (a : Nat) (v : Byte) : (s.memWrite a v).ledCount = s.ledCount := by
  unfold State.memWrite; split <;> rfl
@[simp] theorem State.memWrite_bright (s : State) (a : Nat) (v : Byte) : (s.memWrite a v).bright = s.bright := by
  unfold State.memWrite; split <;> rfl
@[simp] theorem State.memWrite_pin (s : State) (a : Nat) (v : Byte) : (s.memWrite a v).pin = s.pin := by
  unfold State.memWrite; split <;> rfl
@[simp] theorem State.memWrite_pending (s : State) (a : Nat) (v : Byte) : (s.memWrite a v).pending = s.pending := by
  unfold State.memWrite; split <;> rfl
@[simp] theorem State.memWrite_trace (s : State) (a : Nat) (v : Byte) : (s.memWrite a v).trace = s.trace := by
  unfold State.memWrite; split <;> rfl

@[simp] theorem State.writeLed_params (s : State) (i : Int) (color : Color) : (s.writeLed i color).1.params = s.params := by
  unfold State.writeLed; split <;> simp
@[simp] theorem State.writeLed_inited (s : State) (i : Int) (color : Color) : (s.writeLed i color).1.inited = s.inited := by
  unfold State.writeLed; split <;> simp
@[simp] theorem State.writeLed_ledCount (s : State) (i : Int) (color : Color) : (s.writeLed i color).1.ledCount = s.ledCount := by
  unfold State.writeLed; split <;> simp
@[simp] theorem State.writeLed_bright (s : State) (i : Int) (color : Color) : (s.writeLed i color).1.bright = s.bright := by
  unfold State.writeLed; split <;> simp
@[simp] theorem State.writeLed_pin (s : State) (i : Int) (color : Color) : (s.writeLed i color).1.pin = s.pin := by
  unfold State.writeLed; split <;> simp
@[simp] theorem State.writeLed_pending (s : State) (i : Int) (color : Color) : (s.writeLed i color).1.pending = s.pending := by
  unfold State.writeLed; split <;> simp
@[simp] theorem State.writeLed_trace (s : State) (i : Int) (color : Color) : (s.writeLed i color).1.trace = s.trace := by
  unfold State.writeLed; split <;> simp

@[simp] theorem State.writeLeds_params (s : State) (ws : List (Int × Color)) : (s.writeLeds ws).1.params = s.params := by
  induction ws generalizing s with
  | nil => rfl
  | cons w ws ih => simp [State.writeLeds, ih]
@[simp] theorem State.writeLeds_inited (s : State) (ws : List (Int × Color)) : (s.writeLeds ws).1.inited = s.inited := by
  induction ws generalizing s with
  | nil => rfl
  | cons w ws ih => simp [State.writeLeds, ih]
@[simp] theorem State.writeLeds_ledCount (s : State) (ws : List (Int × Color)) : (s.writeLeds ws).1.ledCount = s.ledCount := by
  induction ws generalizing s with
  | nil => rfl
  | cons w ws ih => simp [State.writeLeds, ih]
@[simp] theorem State.writeLeds_bright (s : State) (ws : List (Int × Color)) : (s.writeLeds ws).1.bright = s.bright := by
  induction ws generalizing s with
  | nil => rfl
  | cons w ws ih => simp [State.writeLeds, ih]
@[simp] theorem State.writeLeds_pin (s : State) (ws : List (Int × Color)) : (s.writeLeds ws).1.pin = s.pin := by
  induction ws generalizing s with
  | nil => rfl
  | cons w ws ih => simp [State.writeLeds, ih]
@[simp] theorem State.writeLeds_pending (s : State) (ws : List (Int × Color)) : (s.writeLeds ws).1.pending = s.pending := by
  induction ws generalizing s with
  | nil => rfl
  | cons w ws ih => simp [State.writeLeds, ih]
@[simp] theorem State.writeLeds_trace (s : State) (ws : List (Int × Color)) : (s.writeLeds ws).1.trace = s.trace := by
  induction ws generalizing s with
  | nil => rfl
  | cons w ws ih => simp [State.writeLeds, ih]

@[simp] theorem State.assignLeds_params (s : State) (f : Nat → Led) : (s.assignLeds f).params = s.params := rfl
@[simp] theorem State.assignLeds_inited (s : State) (f : Nat → Led) : (s.assignLeds f).inited = s.inited := rfl
@[simp] theorem State.assignLeds_ledCount (s : State) (f : Nat → Led) : (s.assignLeds f).ledCount = s.ledCount := rfl
@[simp] theorem State.assignLeds_bright (s : State) (f : Nat → Led) : (s.assignLeds f).bright = s.bright := rfl
@[simp] theorem State.assignLeds_pin (s : State) (f : Nat → Led) : (s.assignLeds f).pin = s.pin := rfl
@[simp] theorem State.assignLeds_pending (s : State) (f : Nat → Led) : (s.assignLeds f).pending = s.pending := rfl
@[simp] theorem State.assignLeds_trace (s : State) (f : Nat → Led) : (s.assignLeds f).trace = s.trace := rfl

/-! ## Reset -/

@[simp] theorem State.powerOn_params (p : Params) : (State.powerOn p).params = p := rfl
@[simp] theorem State.powerOn_inited (p : Params) : (State.powerOn p).inited = false := rfl
@[simp] theorem State.powerOn_ledCount (p : Params) : (State.powerOn p).ledCount = 0#16 := rfl
@[simp] theorem State.powerOn_bright (p : Params) : (State.powerOn p).bright = p.brightRst := rfl
@[simp] theorem State.powerOn_pin (p : Params) : (State.powerOn p).pin = 0#8 := rfl
@[simp] theorem State.powerOn_buf (p : Params) : (State.powerOn p).buf = [] := rfl
@[simp] theorem State.powerOn_pending (p : Params) : (State.powerOn p).pending = [] := rfl
@[simp] theorem State.powerOn_trace (p : Params) : (State.powerOn p).trace = [] := rfl

@[simp] theorem State.applyReset_params (s : State) : s.applyReset.params = s.params := rfl
@[simp] theorem State.applyReset_inited (s : State) : s.applyReset.inited = false := rfl
@[simp] theorem State.applyReset_ledCount (s : State) : s.applyReset.ledCount = 0#16 := rfl
@[simp] theorem State.applyReset_bright (s : State) : s.applyReset.bright = s.params.brightRst := rfl
@[simp] theorem State.applyReset_pin (s : State) : s.applyReset.pin = 0#8 := rfl
@[simp] theorem State.applyReset_buf (s : State) : s.applyReset.buf = [] := rfl
@[simp] theorem State.applyReset_pending (s : State) : s.applyReset.pending = s.pending := rfl
@[simp] theorem State.applyReset_trace (s : State) : s.applyReset.trace = s.trace ++ [.resetMark] := rfl

/-! ## The views of LEDCOUNT and of BUF -/

@[simp] theorem State.flush_n (s : State) : s.flush.n = s.n := rfl
@[simp] theorem State.flush_bufLen (s : State) : s.flush.bufLen = s.bufLen := rfl
@[simp] theorem State.respond_n (s : State) (st : Status) (v : BitVec 32) : (s.respond st v).n = s.n := rfl
@[simp] theorem State.respond_bufLen (s : State) (st : Status) (v : BitVec 32) : (s.respond st v).bufLen = s.bufLen := rfl
@[simp] theorem State.ignore_n (s : State) (st : Status) : (s.ignore st).n = s.n := rfl
@[simp] theorem State.ignore_bufLen (s : State) (st : Status) : (s.ignore st).bufLen = s.bufLen := rfl
@[simp] theorem State.answered_n (s : State) (c : Byte) (v : BitVec 32) : (s.answered c v).n = s.n := rfl
@[simp] theorem State.answered_bufLen (s : State) (c : Byte) (v : BitVec 32) : (s.answered c v).bufLen = s.bufLen := rfl
@[simp] theorem State.memWrite_n (s : State) (a : Nat) (v : Byte) : (s.memWrite a v).n = s.n := by simp [State.n]
@[simp] theorem State.memWrite_bufLen (s : State) (a : Nat) (v : Byte) : (s.memWrite a v).bufLen = s.bufLen := by simp [State.bufLen]
@[simp] theorem State.writeLed_n (s : State) (i : Int) (color : Color) : (s.writeLed i color).1.n = s.n := by simp [State.n]
@[simp] theorem State.writeLed_bufLen (s : State) (i : Int) (color : Color) : (s.writeLed i color).1.bufLen = s.bufLen := by simp [State.bufLen]
@[simp] theorem State.writeLeds_n (s : State) (ws : List (Int × Color)) : (s.writeLeds ws).1.n = s.n := by simp [State.n]
@[simp] theorem State.writeLeds_bufLen (s : State) (ws : List (Int × Color)) : (s.writeLeds ws).1.bufLen = s.bufLen := by simp [State.bufLen]
@[simp] theorem State.assignLeds_n (s : State) (f : Nat → Led) : (s.assignLeds f).n = s.n := rfl
@[simp] theorem State.assignLeds_bufLen (s : State) (f : Nat → Led) : (s.assignLeds f).bufLen = s.bufLen := rfl
@[simp] theorem State.flush_bytes (s : State) : s.flush.bytes = s.bytes := rfl
@[simp] theorem State.flush_memRead (s : State) (x : Nat) : s.flush.memRead x = s.memRead x := rfl
@[simp] theorem State.flush_led (s : State) (i : Nat) : s.flush.led i = s.led i := rfl
@[simp] theorem State.respond_bytes (s : State) (st : Status) (v : BitVec 32) : (s.respond st v).bytes = s.bytes := rfl
@[simp] theorem State.respond_memRead (s : State) (st : Status) (v : BitVec 32) (x : Nat) : (s.respond st v).memRead x = s.memRead x := rfl
@[simp] theorem State.respond_led (s : State) (st : Status) (v : BitVec 32) (i : Nat) : (s.respond st v).led i = s.led i := rfl
@[simp] theorem State.ignore_bytes (s : State) (st : Status) : (s.ignore st).bytes = s.bytes := rfl
@[simp] theorem State.ignore_memRead (s : State) (st : Status) (x : Nat) : (s.ignore st).memRead x = s.memRead x := rfl
@[simp] theorem State.ignore_led (s : State) (st : Status) (i : Nat) : (s.ignore st).led i = s.led i := rfl
@[simp] theorem State.answered_bytes (s : State) (c : Byte) (v : BitVec 32) : (s.answered c v).bytes = s.bytes := rfl
@[simp] theorem State.answered_memRead (s : State) (c : Byte) (v : BitVec 32) (x : Nat) : (s.answered c v).memRead x = s.memRead x := rfl
@[simp] theorem State.answered_led (s : State) (c : Byte) (v : BitVec 32) (i : Nat) : (s.answered c v).led i = s.led i := rfl

/-- Two states with the same fields are the same. -/
theorem State.eq_of_fields {s t : State} (h : s.sameTuple t) (hp : t.pending = s.pending) (ht : t.trace = s.trace) :
    t = s := by
  obtain ⟨h1, h2, h3, h4, h5, h6⟩ := h
  cases s; cases t; simp_all

theorem State.sameTuple_refl (s : State) : s.sameTuple s := ⟨rfl, rfl, rfl, rfl, rfl, rfl⟩

theorem State.sameButBuf_refl (s : State) : s.sameButBuf s := ⟨rfl, rfl, rfl, rfl, rfl, rfl⟩

/-- A response is the answered state. -/
theorem State.respond_eq_answered (s : State) (st : Status) (v : BitVec 32) :
    s.respond st v = s.answered (statusCode st) v := rfl

/-- An ignored command leaves everything but the trace (R232). -/
theorem State.ignore_eq_answered (s : State) (st : Status) : s.ignore st = s.answered (statusCode st) 0#32 := rfl

/-- The common check of R236, when it passes. -/
theorem State.whenInited_pos {s : State} (h : s.inited = true) (k : State → State) : s.whenInited k = k s := by
  simp [State.whenInited, h]

/-- The common check of R236, when it fires. -/
theorem State.whenInited_neg {s : State} (h : s.inited = false) (k : State → State) :
    s.whenInited k = s.answered 0x03#8 0#32 := by
  simp [State.whenInited, h, State.ignore_eq_answered, statusCode]

end Sys2Proof.Machine
end

