-- ==== Sys2Proof/Laws/Buffer.lean ====
section
/-! SUPPORT. What the buffer operations do: one LED write, a list of LED writes, an assignment of the whole LED sequence. -/

namespace Sys2Proof.Machine

/-- The cells of a state are canonical and lie inside the buffer: the buffer's part of the invariant. -/
def State.bufOk (s : State) : Prop := s.buf.wf ∧ ∀ c ∈ s.buf, c.1 < s.bufLen

theorem State.Inv.bufOk {s : State} (h : s.Inv) : s.bufOk := ⟨h.buf_wf, h.buf_inside⟩

theorem State.memRead_of_lt {s : State} {a : Nat} (h : a < s.bufLen) : s.memRead a = some (s.buf.byteAt a) := by
  simp [State.memRead, h]

theorem State.memRead_of_ge {s : State} {a : Nat} (h : s.bufLen ≤ a) : s.memRead a = none := by
  simp [State.memRead, Nat.not_lt.2 h]

/-- Reads agree where the cells read alike. -/
theorem State.memRead_congr {s t : State} {a : Nat} (hn : t.n = s.n) (h : t.buf.byteAt a = s.buf.byteAt a) :
    t.memRead a = s.memRead a := by
  have hb : t.bufLen = s.bufLen := by rw [State.bufLen, State.bufLen, hn]
  unfold State.memRead
  rw [hb, h]

/-- A LED inside the strip holds the triplet that its accessor reads. -/
theorem State.holdsLed_iff {t : State} {i : Nat} {l : Led} (h : i < t.n) : t.holdsLed i l ↔ t.led i = l := by
  have hb : t.bufLen = 3 * t.n := rfl
  cases l
  simp only [State.holdsLed, State.led, Led.mk.injEq]
  rw [State.memRead_of_lt (by omega), State.memRead_of_lt (by omega), State.memRead_of_lt (by omega)]
  simp

/-- One byte of an LED inside the strip. -/
theorem State.memRead_led {t : State} {i k : Nat} (hi : i < t.n) (hk : k < 3) :
    t.memRead (3 * i + k) =
      some (if k = 0 then (t.led i).green else if k = 1 then (t.led i).red else (t.led i).blue) := by
  obtain ⟨h1, h2, h3⟩ := (State.holdsLed_iff hi).2 rfl
  have : k = 0 ∨ k = 1 ∨ k = 2 := by omega
  rcases this with rfl | rfl | rfl
  · exact h1
  · exact h2
  · exact h3

/-- Reads of a whole LED agree where its byte reads do. -/
theorem State.led_congr {s t : State} {i : Nat} (h : ∀ a, a / 3 = i → t.buf.byteAt a = s.buf.byteAt a) :
    t.led i = s.led i := by
  simp only [State.led]
  rw [h _ (by omega), h _ (by omega), h _ (by omega)]

/-! ## One LED write (R46) -/

theorem State.writeLed_outside {s : State} {i : Int} (h : ¬(0 ≤ i ∧ i < s.n)) (color : Color) :
    s.writeLed i color = (s, 0) := by
  simp only [State.writeLed, if_neg h]

theorem State.writeLed_count (s : State) (i : Int) (color : Color) :
    (s.writeLed i color).2 = if 0 ≤ i ∧ i < s.n then 1 else 0 := by
  unfold State.writeLed; split <;> rfl

/-- The bytes after an LED write inside the strip. -/
theorem State.writeLed_byteAt {s : State} (hs : s.buf.wf) {i : Int} (h : 0 ≤ i ∧ i < s.n) (color : Color) (a : Nat) :
    (s.writeLed i color).1.buf.byteAt a =
      if a = 3 * i.toNat then (scaleColor color s.bright).green
      else if a = 3 * i.toNat + 1 then (scaleColor color s.bright).red
      else if a = 3 * i.toNat + 2 then (scaleColor color s.bright).blue
      else s.buf.byteAt a := by
  have hb : s.bufLen = 3 * s.n := rfl
  have hi : i.toNat < s.n := by omega
  simp only [State.writeLed, if_pos h]
  have e1 : ∀ (t : State) (x : Nat) (v : Byte), x < t.bufLen → (t.memWrite x v).buf = t.buf.put x v := by
    intro t x v hx
    simp [State.memWrite, hx]
  rw [e1 _ _ _ (by simp; omega), e1 _ _ _ (by simp; omega), e1 _ _ _ (by omega)]
  rw [Memory.byteAt_put (Memory.wf_put (Memory.wf_put hs _ _) _ _), Memory.byteAt_put (Memory.wf_put hs _ _),
    Memory.byteAt_put hs]
  split
  · split
    · omega
    · split
      · omega
      · rfl
  · split
    · split
      · omega
      · rfl
    · rfl

/-- A write of another LED leaves a byte as it was. -/
theorem State.writeLed_byteAt_of_ne {s : State} (hs : s.buf.wf) {i : Int} (color : Color) {a : Nat}
    (h : i ≠ ((a / 3 : Nat) : Int)) : (s.writeLed i color).1.buf.byteAt a = s.buf.byteAt a := by
  by_cases hi : 0 ≤ i ∧ i < s.n
  · rw [State.writeLed_byteAt hs hi, if_neg (by omega), if_neg (by omega), if_neg (by omega)]
  · rw [State.writeLed_outside hi]

/-- The LED after its write. -/
theorem State.writeLed_led_self {s : State} (hs : s.buf.wf) {i : Nat} (h : i < s.n) (color : Color) :
    (s.writeLed i color).1.led i = scaleColor color s.bright := by
  have hi : (0 : Int) ≤ i ∧ (i : Int) < s.n := by omega
  simp only [State.led]
  rw [State.writeLed_byteAt hs hi, State.writeLed_byteAt hs hi, State.writeLed_byteAt hs hi]
  simp

/-- Another LED after a write. -/
theorem State.writeLed_led_of_ne {s : State} (hs : s.buf.wf) {i : Int} {j : Nat} (h : i ≠ j) (color : Color) :
    (s.writeLed i color).1.led j = s.led j :=
  State.led_congr fun a ha => State.writeLed_byteAt_of_ne hs color (by omega)

theorem State.memWrite_bufOk {s : State} (hs : s.bufOk) (a : Nat) (v : Byte) : (s.memWrite a v).bufOk := by
  unfold State.memWrite
  split
  · refine ⟨Memory.wf_put hs.1 _ _, fun c hc => ?_⟩
    rcases Memory.mem_put hc with hc | ⟨rfl, -⟩
    · exact hs.2 c hc
    · assumption
  · exact hs

theorem State.writeLed_bufOk {s : State} (hs : s.bufOk) (i : Int) (color : Color) : (s.writeLed i color).1.bufOk := by
  unfold State.writeLed
  split
  · exact State.memWrite_bufOk (State.memWrite_bufOk (State.memWrite_bufOk hs _ _) _ _) _ _
  · exact hs

/-! ## A list of LED writes (R133, R136, R191) -/

theorem State.writeLeds_bufOk {s : State} (hs : s.bufOk) (ws : List (Int × Color)) : (s.writeLeds ws).1.bufOk := by
  induction ws generalizing s with
  | nil => exact hs
  | cons w ws ih => exact ih (State.writeLed_bufOk hs w.1 w.2)

/-- How many of the LEDs are written: those inside the strip. -/
theorem State.writeLeds_count (s : State) (ws : List (Int × Color)) :
    (s.writeLeds ws).2 = ws.countP fun (w : Int × Color) => decide (0 ≤ w.1 ∧ w.1 < (s.n : Int)) := by
  induction ws generalizing s with
  | nil => rfl
  | cons w ws ih =>
    simp only [State.writeLeds, ih, State.writeLed_count, State.writeLed_n, List.countP_cons, decide_eq_true_eq]
    omega

/-- A byte of an LED that no write names is as it was. -/
theorem State.writeLeds_byteAt_of_ne {s : State} (hs : s.bufOk) {ws : List (Int × Color)} {a : Nat}
    (h : ∀ w ∈ ws, w.1 ≠ ((a / 3 : Nat) : Int)) : (s.writeLeds ws).1.buf.byteAt a = s.buf.byteAt a := by
  induction ws generalizing s with
  | nil => rfl
  | cons w ws ih =>
    simp only [State.writeLeds]
    rw [ih (State.writeLed_bufOk hs _ _) fun x hx => h x (List.mem_cons_of_mem _ hx),
      State.writeLed_byteAt_of_ne hs.1 _ (h w (by simp))]

theorem State.writeLeds_led_of_ne {s : State} (hs : s.bufOk) {ws : List (Int × Color)} {j : Nat}
    (h : ∀ w ∈ ws, w.1 ≠ (j : Int)) : (s.writeLeds ws).1.led j = s.led j :=
  State.led_congr fun a ha => State.writeLeds_byteAt_of_ne hs fun w hw => by rw [ha]; exact h w hw

/-- An LED inside the strip that the writes name, always with one colour, holds that colour scaled. -/
theorem State.writeLeds_led {s : State} (hs : s.bufOk) {ws : List (Int × Color)} {j : Nat} {color : Color} (hj : j < s.n)
    (hex : ∃ w ∈ ws, w.1 = (j : Int)) (hone : ∀ w ∈ ws, w.1 = (j : Int) → w.2 = color) :
    (s.writeLeds ws).1.led j = scaleColor color s.bright := by
  induction ws generalizing s with
  | nil => simp at hex
  | cons w ws ih =>
    simp only [State.writeLeds]
    by_cases hl : ∃ x ∈ ws, x.1 = (j : Int)
    · have := ih (State.writeLed_bufOk hs w.1 w.2) (by simpa using hj) hl fun x hx => hone x (List.mem_cons_of_mem _ hx)
      simpa using this
    · rw [State.writeLeds_led_of_ne (State.writeLed_bufOk hs _ _) fun x hx h => hl ⟨x, hx, h⟩]
      obtain ⟨x, hx, hxj⟩ := hex
      rcases List.mem_cons.1 hx with rfl | hx
      · rw [hxj, hone x (by simp) hxj]
        exact State.writeLed_led_self hs.1 hj color
      · exact absurd ⟨x, hx, hxj⟩ hl

/-! ## Assigning the LED sequence (R171) -/

theorem State.assignLeds_bufOk (s : State) (f : Nat → Led) : (s.assignLeds f).bufOk := by
  refine ⟨Memory.wf_ofBytes _ _, fun c hc => ?_⟩
  have := (Memory.mem_ofBytes hc).2.1
  simpa [State.bufLen, State.n, List.length_flatMap, Nat.mul_comm] using this

/-- The triplets of a sequence, one after another, read by position. -/
theorem flatMap_triplet_getD (f : Nat → Led) (n i : Nat) (h : i < n) :
    ((List.range n).flatMap fun i => [(f i).green, (f i).red, (f i).blue]).getD (3 * i) 0#8 = (f i).green ∧
    ((List.range n).flatMap fun i => [(f i).green, (f i).red, (f i).blue]).getD (3 * i + 1) 0#8 = (f i).red ∧
    ((List.range n).flatMap fun i => [(f i).green, (f i).red, (f i).blue]).getD (3 * i + 2) 0#8 = (f i).blue := by
  induction n with
  | zero => omega
  | succ n ih =>
    have hlen : ((List.range n).flatMap fun i => [(f i).green, (f i).red, (f i).blue]).length = 3 * n := by
      simp [List.length_flatMap, Nat.mul_comm]
    rw [List.range_succ, List.flatMap_append]
    by_cases hi : i < n
    · obtain ⟨h1, h2, h3⟩ := ih hi
      refine ⟨?_, ?_, ?_⟩
      · rw [List.getD_append _ _ _ _ (by omega)]; exact h1
      · rw [List.getD_append _ _ _ _ (by omega)]; exact h2
      · rw [List.getD_append _ _ _ _ (by omega)]; exact h3
    · have hin : i = n := by omega
      subst i
      refine ⟨?_, ?_, ?_⟩
      · rw [List.getD_append_right _ _ _ _ (by omega), hlen]; simp
      · rw [List.getD_append_right _ _ _ _ (by omega), hlen, Nat.add_sub_cancel_left]; simp
      · rw [List.getD_append_right _ _ _ _ (by omega), hlen, Nat.add_sub_cancel_left]; simp

/-- The LEDs after an assignment. -/
theorem State.assignLeds_led (s : State) (f : Nat → Led) {i : Nat} (h : i < s.n) : (s.assignLeds f).led i = f i := by
  obtain ⟨h1, h2, h3⟩ := flatMap_triplet_getD f s.n i h
  have e : ∀ k, (s.assignLeds f).buf.byteAt k =
      ((List.range s.n).flatMap fun i => [(f i).green, (f i).red, (f i).blue]).getD k 0#8 := by
    intro k
    have := Memory.byteAt_ofBytes ((List.range s.n).flatMap fun i => [(f i).green, (f i).red, (f i).blue]) 0 k
    simpa [State.assignLeds] using this
  simp only [State.led, e, h1, h2, h3]

/-- Two buffers of the same length whose LEDs are alike are the same data. -/
theorem State.buf_eq_of_leds {s t : State} (hs : s.bufOk) (ht : t.bufOk) (hn : t.n = s.n)
    (h : ∀ i < s.n, t.led i = s.led i) : t.buf = s.buf := by
  refine Memory.ext_of_wf ht.1 hs.1 fun a => ?_
  have hb : s.bufLen = 3 * s.n := rfl
  have hb' : t.bufLen = 3 * s.n := by rw [← hn]; rfl
  by_cases ha : a < 3 * s.n
  · have hl := h (a / 3) (by omega)
    simp only [State.led, Led.mk.injEq] at hl
    obtain ⟨h1, h2, h3⟩ := hl
    have : a = 3 * (a / 3) ∨ a = 3 * (a / 3) + 1 ∨ a = 3 * (a / 3) + 2 := by omega
    rcases this with e | e | e
    · rw [e]; exact h1
    · rw [e]; exact h2
    · rw [e]; exact h3
  · rw [Memory.byteAt_eq_zero_of_not_listed fun c hc => by have := ht.2 c hc; omega,
      Memory.byteAt_eq_zero_of_not_listed fun c hc => by have := hs.2 c hc; omega]

/-! ## Integer ranges -/

theorem mem_intRange {lo hi i : Int} : i ∈ intRange lo hi ↔ lo ≤ i ∧ i ≤ hi := by
  simp only [intRange, List.mem_map, List.mem_range]
  constructor
  · rintro ⟨k, hk, rfl⟩; omega
  · rintro ⟨h1, h2⟩
    exact ⟨(i - lo).toNat, by omega, by omega⟩

@[simp] theorem length_intRange (lo hi : Int) : (intRange lo hi).length = (hi - lo + 1).toNat := by
  simp [intRange]

end Sys2Proof.Machine
end

