-- ==== Sys2Proof/Laws/Codec.lean ====
section
/-! SUPPORT. The codec's definitions as arithmetic on numbers, and the bounds of the converter's intermediates. -/

namespace Sys2Proof.Machine

/-! ## Lanes -/

theorem redOf_toNat (c : Color) : (redOf c).toNat = c.toNat / 65536 := by
  have := c.isLt
  simp only [redOf, toNat_slice]; omega

theorem greenOf_toNat (c : Color) : (greenOf c).toNat = c.toNat / 256 % 256 := by
  simp only [greenOf, toNat_slice]; omega

theorem blueOf_toNat (c : Color) : (blueOf c).toNat = c.toNat % 256 := by
  simp only [blueOf, toNat_slice]; omega

theorem colorOf_toNat (r g b : Byte) : (colorOf r g b).toNat = r.toNat * 65536 + g.toNat * 256 + b.toNat := by
  simp only [colorOf, toNat_append_add]; omega

theorem ledWord_toNat (l : Led) : (ledWord l).toNat = l.green.toNat * 65536 + l.red.toNat * 256 + l.blue.toNat := by
  simp only [ledWord, toNat_append_add]; omega

/-- A 24-bit word zero-extended to a VALUE. -/
theorem value24_toNat (x : BitVec 24) : (x.setWidth 32).toNat = x.toNat := by
  have := x.isLt
  rw [BitVec.toNat_setWidth]; omega

/-! ## The brightness multiplier -/

/-- R103: the stored channel is exactly the integer formula. -/
theorem scaleCh_toNat (v b : Byte) : (scaleCh v b).toNat = (v.toNat * b.toNat + 127) / 255 := by
  have h : v.toNat * b.toNat ≤ 255 * 255 := Nat.mul_le_mul (by omega) (by omega)
  rw [scaleCh, BitVec.toNat_ofNat]
  omega

/-! ## The converter -/

theorem hslHue_lt (h : Nat) : hslHue h < 360 := Nat.mod_lt _ (by omega)

theorem hslClamp_le (v : Nat) : hslClamp v ≤ 99 := Nat.min_le_right _ _

theorem hslSector_le {h : Nat} (hh : h < 360) : hslSector h ≤ 5 := by
  simp only [hslSector]; omega

theorem hslPosition_le {h : Nat} : hslPosition h ≤ 251 := by
  simp only [hslPosition, hslSector]; omega

theorem hslDistance_le (h : Nat) : hslDistance h ≤ 256 := by
  have := hslPosition_le (h := h)
  simp only [hslDistance]; omega

/-- R108, R118: the chroma is at most 253, and never above twice the lightness on its scale. -/
theorem hslChroma_bounds {s l : Nat} (hs : s ≤ 99) (hl : l ≤ 99) :
    hslChroma s l ≤ 253 ∧ hslChroma s l ≤ l * 2 * 256 / 100 ∧ hslChroma s l ≤ 512 - 5 * l := by
  have hw : (100 - (2 * (l : Int) - 100).natAbs) * s ≤ (100 - (2 * (l : Int) - 100).natAbs) * 99 :=
    Nat.mul_le_mul_left _ hs
  simp only [hslChroma]
  omega

/-- R110, R118: the second component is at most the chroma. -/
theorem hslSecond_le (c h : Nat) : hslSecond c h ≤ c := by
  have hm : c * (256 - hslDistance h) ≤ c * 256 := Nat.mul_le_mul_left _ (by omega)
  rw [hslSecond, Nat.shiftRight_eq_div_pow]
  omega

/-- R112 as natural numbers: the subtraction is never negative (R120). -/
theorem hslOffset_eq {s l : Nat} (hs : s ≤ 99) (hl : l ≤ 99) :
    hslOffset (hslChroma s l) l = (((l * 2 * 256 / 100 - hslChroma s l) / 2 : Nat) : Int) := by
  have h := (hslChroma_bounds hs hl).2.1
  rw [hslOffset, ← Int.ofNat_sub h]
  rfl

/-- R118: offset plus chroma is at most 255, so a channel sum lies in 0 .. 255. -/
theorem hslOffset_bounds {s l : Nat} (hs : s ≤ 99) (hl : l ≤ 99) :
    0 ≤ hslOffset (hslChroma s l) l ∧ hslOffset (hslChroma s l) l ≤ 253 ∧
      hslOffset (hslChroma s l) l + hslChroma s l ≤ 255 := by
  rw [hslOffset_eq hs hl]
  obtain ⟨h1, h2, h3⟩ := hslChroma_bounds hs hl
  have hw : (100 - (2 * (l : Int) - 100).natAbs) * s ≤ (100 - (2 * (l : Int) - 100).natAbs) * 99 :=
    Nat.mul_le_mul_left _ hs
  have : hslChroma s l ≤ (100 - (2 * (l : Int) - 100).natAbs) * 99 * 256 / 10000 := by
    simp only [hslChroma]; omega
  omega

/-- A channel whose sum lies in 0 .. 255 is that sum: the mask of R112 does nothing. -/
theorem hslChannel_toNat {v : Nat} {m : Int} (h0 : 0 ≤ (v : Int) + m) (h1 : (v : Int) + m ≤ 255) :
    ((hslChannel v m).toNat : Int) = (v : Int) + m := by
  rw [hslChannel, BitVec.toNat_ofInt]
  omega

/-- The row of the LUT holds the chroma, the second component and 0. -/
theorem hslLut_le {h1 c x : Nat} (hx : x ≤ c) :
    (hslLut h1 c x).1 ≤ c ∧ (hslLut h1 c x).2.1 ≤ c ∧ (hslLut h1 c x).2.2 ≤ c := by
  unfold hslLut
  split
  · exact ⟨le_rfl, hx, Nat.zero_le _⟩
  · split
    · exact ⟨hx, le_rfl, Nat.zero_le _⟩
    · split
      · exact ⟨Nat.zero_le _, le_rfl, hx⟩
      · split
        · exact ⟨Nat.zero_le _, hx, le_rfl⟩
        · split
          · exact ⟨hx, Nat.zero_le _, le_rfl⟩
          · exact ⟨le_rfl, Nat.zero_le _, hx⟩

end Sys2Proof.Machine
end

