-- ==== Sys2Proof/Laws/Decode.lean ====
section
/-! SUPPORT. The opcode map and the mask tests as arithmetic on numbers; what the decoder answers. -/

namespace Sys2Proof

/-- The opcode map is one to one: the byte of a row names that row. -/
theorem opcodeOfByte_opcodeByte (o : Opcode) : opcodeOfByte (opcodeByte o) = some o := by
  cases o <;> rfl

theorem opcodeOfByte_elim :
    ∀ n : Fin 256, ((opcodeOfByte (BitVec.ofFin n)).elim true fun o => opcodeByte o == BitVec.ofFin n) = true := by
  decide +kernel

/-- The opcode map is one to one: a byte that names a row is the row's byte. -/
theorem opcodeByte_of_opcodeOfByte {b : BitVec 8} {o : Opcode} (h : opcodeOfByte b = some o) : opcodeByte o = b := by
  have hb := opcodeOfByte_elim b.toFin
  rw [show BitVec.ofFin b.toFin = b from rfl, h] at hb
  simpa using hb

/-- Masking all bits from `k` up keeps the bits from `k` up. -/
theorem and_allOnes_shiftLeft (w : CmdWord) (k : Nat) : w &&& (BitVec.allOnes 64 <<< k) = (w >>> k) <<< k := by
  ext i hi
  simp only [BitVec.getElem_and, BitVec.getElem_shiftLeft, BitVec.getElem_allOnes,
    BitVec.getElem_ushiftRight]
  by_cases h : i < k
  · simp [h]
  · simp [h, Nat.add_sub_cancel' (Nat.not_lt.1 h), BitVec.getLsbD_eq_getElem hi]

/-- The test of a mask of all bits from `k` up. -/
theorem and_highMask_iff (w m c : CmdWord) (k : Nat) (hm : m = BitVec.allOnes 64 <<< k)
    (hc : c.toNat % 2 ^ k = 0) : w &&& m = c ↔ w.toNat / 2 ^ k = c.toNat / 2 ^ k := by
  subst hm
  rw [and_allOnes_shiftLeft, BitVec.toNat_eq, BitVec.toNat_shiftLeft, BitVec.toNat_ushiftRight, Nat.shiftRight_eq_div_pow,
    Nat.shiftLeft_eq]
  have hw : w.toNat / 2 ^ k * 2 ^ k < 2 ^ 64 := lt_of_le_of_lt (Nat.div_mul_le_self _ _) w.isLt
  rw [Nat.mod_eq_of_lt hw]
  have hcm : c.toNat = c.toNat / 2 ^ k * 2 ^ k := (Nat.div_mul_cancel (Nat.dvd_of_mod_eq_zero hc)).symm
  constructor
  · intro h
    rw [← h, Nat.mul_div_cancel _ (Nat.two_pow_pos k)]
  · intro h
    rw [h, ← hcm]

/-- The test of ENCRNG's mask, the one row with two reserved runs of bits. -/
theorem and_encrngMask_iff (w : CmdWord) :
    w &&& opcodeMask .encrng = opcodeMatch .encrng ↔ w.toNat / 2 ^ 32 = 0x13000000 ∧ w.toNat / 2 ^ 8 % 2 ^ 8 = 0 := by
  have e : opcodeMask .encrng = (BitVec.allOnes 64 <<< 32) ||| (0x000000000000FF00#64) := by decide
  have h1 := and_highMask_iff w (BitVec.allOnes 64 <<< 32) (opcodeMatch .encrng) 32 rfl (by decide)
  have h3 : (w &&& 0x000000000000FF00#64).toNat = w.toNat / 2 ^ 8 % 2 ^ 8 * 256 := by
    have h2 : (0x000000000000FF00#64).toNat = (2 ^ 8 - 1) <<< 8 := rfl
    have h2' : ∀ x : Nat, x * 256 = x <<< 8 := fun x => (Nat.shiftLeft_eq x 8).symm
    rw [BitVec.toNat_and, h2, h2']
    refine Nat.eq_of_testBit_eq fun i => ?_
    simp only [Nat.testBit_and, Nat.testBit_shiftLeft, Nat.testBit_mod_two_pow, Nat.testBit_div_two_pow,
      Nat.testBit_two_pow_sub_one]
    by_cases hi : 8 ≤ i
    · simp [hi, Nat.sub_add_cancel hi, Bool.and_comm]
    · simp [hi]
  have h4 : (w &&& (BitVec.allOnes 64 <<< 32)).toNat = w.toNat / 2 ^ 32 * 2 ^ 32 := by
    rw [and_allOnes_shiftLeft, BitVec.toNat_shiftLeft, BitVec.toNat_ushiftRight, Nat.shiftRight_eq_div_pow,
      Nat.shiftLeft_eq]
    exact Nat.mod_eq_of_lt (lt_of_le_of_lt (Nat.div_mul_le_self _ _) w.isLt)
  have h5 : (w &&& opcodeMask .encrng).toNat = w.toNat / 2 ^ 32 * 2 ^ 32 + w.toNat / 2 ^ 8 % 2 ^ 8 * 256 := by
    have hb : w.toNat / 2 ^ 8 % 2 ^ 8 * 256 < 2 ^ 32 := by omega
    rw [e, BitVec.and_or_distrib_left, BitVec.toNat_or, h3, h4, Nat.mul_comm (w.toNat / 2 ^ 32),
      ← Nat.two_pow_add_eq_or_of_lt hb]
  rw [BitVec.toNat_eq, h5]
  have h6 : (opcodeMatch .encrng).toNat = 0x13000000 * 2 ^ 32 := rfl
  rw [h6]
  omega

/-- How many low bits of a row's words its mask leaves free, for the rows with one run of mask bits. -/
def rowShift : Opcode → Nat
  | .nop | .clear => 0
  | .setbrt | .rdcfg => 8
  | .shift | .rotate | .rdled => 16
  | .init | .setall | .pack | .scale | .rdbuf => 24
  | .hsl2rgb => 28
  | .encrng => 32
  | .setsel | .setrng | .grad => 56

/-- The test of every row but ENCRNG's: the bits above the free ones are the match value's. -/
theorem row_iff (w : CmdWord) {o : Opcode} (ho : o ≠ .encrng) :
    w &&& opcodeMask o = opcodeMatch o ↔ w.toNat / 2 ^ rowShift o = (opcodeMatch o).toNat / 2 ^ rowShift o := by
  cases o <;> first | exact absurd rfl ho | exact and_highMask_iff _ _ _ _ (by decide) (by decide)

/-- A word whose row test passes has the row's opcode byte. -/
theorem opcode_of_row {w : CmdWord} {o : Opcode} (h : w &&& opcodeMask o = opcodeMatch o) :
    wordField w 56 8 = opcodeByte o := by
  have hw := w.isLt
  rw [BitVec.toNat_eq, wordField, toNat_slice]
  by_cases ho : o = .encrng
  · subst ho
    have := (and_encrngMask_iff w).1 h
    simp only [opcodeByte, BitVec.toNat_ofNat]
    omega
  · have h1 := (row_iff w ho).1 h
    cases o <;> simp only [rowShift, opcodeMatch, opcodeByte, BitVec.toNat_ofNat] at h1 ⊢ <;> omega

/-- When the decoder answers a command (R61). -/
theorem decode_ok_iff {w : CmdWord} {i : Instr} :
    decode w = .ok i ↔ ∃ o, w &&& opcodeMask o = opcodeMatch o ∧ commandOf o w = i := by
  constructor
  · intro h
    unfold decode at h
    split at h
    · cases h
    · rename_i o _
      split at h
      · exact ⟨o, ‹_›, Except.ok.inj h⟩
      · cases h
  · rintro ⟨o, h1, h2⟩
    unfold decode
    rw [opcode_of_row h1, opcodeOfByte_opcodeByte]
    simp [h1, h2]

/-- When the decoder finds a reserved opcode (R67). -/
theorem decode_reservedOpcode_iff {w : CmdWord} :
    decode w = .error .reservedOpcode ↔ opcodeOfByte (wordField w 56 8) = none := by
  unfold decode
  split
  · simp_all
  · split <;> simp_all

/-- When the decoder finds reserved bits (R68). -/
theorem decode_reservedBits_iff {w : CmdWord} :
    decode w = .error .reservedBits ↔
      ∃ o, opcodeOfByte (wordField w 56 8) = some o ∧ w &&& opcodeMask o ≠ opcodeMatch o := by
  unfold decode
  split
  · simp_all
  · split <;> simp_all

/-- A decoded command is of the row whose fields it holds. -/
theorem opcode_commandOf (o : Opcode) (w : CmdWord) : (commandOf o w).opcode = o := by
  cases o <;> rfl

/-- The match value is the opcode byte at the top of the word. -/
theorem opcodeMatch_toNat (o : Opcode) : (opcodeMatch o).toNat = (opcodeByte o).toNat * 2 ^ 56 := by
  cases o <;> decide

theorem rowShift_le (o : Opcode) : rowShift o ≤ 56 := by
  cases o <;> decide

/-- The encoded word as a number: the opcode byte above the operand bits. -/
theorem encode_toNat (i : Instr) :
    (encode i).toNat = (opcodeByte i.opcode).toNat * 2 ^ 56 + (encodeOperands i).toNat := by
  rw [encode, toNat_append_add]

end Sys2Proof
end

