-- ==== Sys2Proof/Laws/Range.lean ====
section
/-! SUPPORT. What WriteRange, the full-strip writer and the whole-buffer moves do, each said once. -/

namespace Sys2Proof.Machine

/-- A list of LED writes leaves every register and the host's coming actions. -/
theorem State.writeLeds_sameButBuf (s : State) (ws : List (Int × Color)) : s.sameButBuf (s.writeLeds ws).1 := by
  simp [State.sameButBuf]

/-- The invariant carries over to a state that differs only in BUF and the outputs, when its cells are well placed. -/
theorem State.Inv.of_sameButBuf {s t : State} (h : s.Inv) (hs : s.sameButBuf t) (hb : t.bufOk) : t.Inv := by
  obtain ⟨h1, h2, h3, -, h5, -⟩ := hs
  have hn : t.n = s.n := by simp [State.n, h3]
  exact
    { params_wf := by rw [h1]; exact h.params_wf
      count_of_inited := by rw [h1, h2, hn]; exact h.count_of_inited
      count_of_uninited := by rw [h2, h3]; exact h.count_of_uninited
      pin_of_uninited := by rw [h2, h5]; exact h.pin_of_uninited
      buf_wf := hb.1
      buf_inside := hb.2 }

/-- The writes of one colour over [f0, t0] clipped to the strip. -/
def clippedWrites (s : State) (f0 t0 : Int) (color : Color) : List (Int × Color) :=
  (intRange (max f0 0) (min t0 ((s.n : Int) - 1))).map fun i => (i, color)

/-- What the writes of one colour over an interval do. -/
theorem State.writeLeds_clipped {s : State} (hs : s.bufOk) (f0 t0 : Int) (color : Color) :
    s.rangeWritten f0 t0 color (s.writeLeds (clippedWrites s f0 t0 color)).1
      (s.writeLeds (clippedWrites s f0 t0 color)).2 := by
  have hmem : ∀ w ∈ clippedWrites s f0 t0 color,
      (max f0 0 ≤ w.1 ∧ w.1 ≤ min t0 ((s.n : Int) - 1)) ∧ w.2 = color := by
    intro w hw
    obtain ⟨i, hi, rfl⟩ := List.mem_map.1 hw
    exact ⟨mem_intRange.1 hi, rfl⟩
  refine ⟨State.writeLeds_sameButBuf s _, ?_, ?_, ?_⟩
  · have : (s.writeLeds (clippedWrites s f0 t0 color)).2 = (clippedWrites s f0 t0 color).length := by
      rw [State.writeLeds_count]
      refine List.countP_eq_length.2 fun w hw => ?_
      have := (hmem w hw).1
      simp only [decide_eq_true_eq]
      omega
    rw [this]
    simp only [clippedWrites, List.length_map, length_intRange]
    omega
  · intro i hi h1 h2
    rw [State.holdsLed_iff (by simpa using hi)]
    refine State.writeLeds_led hs hi ⟨((i : Int), color), ?_, rfl⟩ fun w hw _ => (hmem w hw).2
    exact List.mem_map.2 ⟨(i : Int), mem_intRange.2 (by omega), rfl⟩
  · intro a ha
    refine State.memRead_congr (by simp) (State.writeLeds_byteAt_of_ne hs fun w hw h => ha ?_)
    have := (hmem w hw).1
    omega

/-- `WriteRange` (R133), for a selection whose interval is empty when it is malformed, as DecodeSel makes it. -/
theorem State.writeRange_spec {s : State} (hs : s.bufOk) {sel : Selection}
    (hm : sel.kind = .malformed → sel.f0 = 0 ∧ sel.t0 = -1) (color : Color) :
    ∃ w : Nat, s.rangeWritten sel.f0 sel.t0 color (s.writeRange sel color) w ∧ (s.writeRange sel color).bufOk ∧
      (s.writeRange sel color).trace = s.trace ++
        (if 0 < w ∨ s.params.flushOnEmpty = true then [.flush s.pin (s.writeRange sel color).bytes] else []) ++
        [.response (statusCode (rangeStatus sel.kind sel.f0 sel.t0 w)) (BitVec.ofNat 32 w)] := by
  have hf : (if sel.kind = .malformed then 0 else sel.f0) = sel.f0 := by
    split
    · exact (hm ‹_›).1.symm
    · rfl
  have ht : (if sel.kind = .malformed then -1 else sel.t0) = sel.t0 := by
    split
    · exact (hm ‹_›).2.symm
    · rfl
  have key := State.writeLeds_clipped hs sel.f0 sel.t0 color
  have hok := State.writeLeds_bufOk hs (clippedWrites s sel.f0 sel.t0 color)
  have htr := State.writeLeds_trace s (clippedWrites s sel.f0 sel.t0 color)
  refine ⟨(s.writeLeds (clippedWrites s sel.f0 sel.t0 color)).2, ?_⟩
  unfold State.writeRange
  rw [hf, ht]
  simp only [← clippedWrites.eq_1]
  generalize s.writeLeds (clippedWrites s sel.f0 sel.t0 color) = r at key hok htr
  obtain ⟨⟨k1, k2, k3, k4, k5, k6⟩, kw, kl, kb⟩ := key
  split
  · exact ⟨⟨⟨k1, k2, k3, k4, k5, k6⟩, kw, kl, kb⟩, hok, by simp_all⟩
  · exact ⟨⟨⟨k1, k2, k3, k4, k5, k6⟩, kw, kl, kb⟩, hok, by simp_all⟩

/-- The full-strip writer (R136): every LED, one flush, VALUE n. -/
theorem State.writeAll_spec {s : State} (hs : s.bufOk) (color : Color) :
    s.flushedAs (s.writeAll color) 0x00#8 (BitVec.ofNat 32 s.n) ∧ (s.writeAll color).bufOk ∧
      ∀ i < s.n, (s.writeAll color).holdsLed i (scaleColor color s.bright) := by
  have hw : ((intRange 0 ((s.n : Int) - 1)).map fun i => (i, color)) = clippedWrites s 0 ((s.n : Int) - 1) color := by
    simp [clippedWrites]
  have key := State.writeLeds_clipped hs 0 ((s.n : Int) - 1) color
  have hok := State.writeLeds_bufOk hs (clippedWrites s 0 ((s.n : Int) - 1) color)
  have htr := State.writeLeds_trace s (clippedWrites s 0 ((s.n : Int) - 1) color)
  unfold State.writeAll
  rw [hw]
  generalize s.writeLeds (clippedWrites s 0 ((s.n : Int) - 1) color) = r at key hok htr
  obtain ⟨⟨k1, k2, k3, k4, k5, k6⟩, -, kl, -⟩ := key
  refine ⟨⟨⟨k1, k2, k3, k4, k5, k6⟩, ?_⟩, hok, fun i hi => kl i hi (by omega) (by omega)⟩
  simp [htr, k5, statusCode]

/-- A whole-buffer move with its flush and its answer (R172, R174). -/
theorem State.assignLeds_spec (s : State) (f : Nat → Led) :
    s.flushedAs ((s.assignLeds f).flush.respond .ok 0#32) 0x00#8 0#32 ∧
      ((s.assignLeds f).flush.respond .ok 0#32).bufOk ∧
      ∀ i < s.n, ((s.assignLeds f).flush.respond .ok 0#32).led i = f i := by
  refine ⟨⟨by simp [State.sameButBuf], by simp [statusCode]⟩, State.assignLeds_bufOk s f, fun i hi => ?_⟩
  simpa using State.assignLeds_led s f hi

end Sys2Proof.Machine
end

