-- ==== Sys2Proof/Laws/Exec.lean ====
section
/-! SUPPORT. All that a command can do, said once: what each kind of command leaves, in any state. -/

namespace Sys2Proof.Machine

/-- The statuses of the ignored class (R232, R237). -/
abbrev Status.isIgnored (st : Status) : Prop := st ∈ [Status.badOp, .rsvd, .noInit, .badCount, .range, .badArg]

/-- LED writes that all fall outside the strip leave the state as it is. -/
theorem State.writeLeds_of_count_zero {s : State} {ws : List (Int × Color)} (h : (s.writeLeds ws).2 = 0) :
    (s.writeLeds ws).1 = s := by
  induction ws generalizing s with
  | nil => rfl
  | cons w ws ih =>
    simp only [State.writeLeds] at h ⊢
    have h1 : (s.writeLed w.1 w.2).2 = 0 := by omega
    have hw : s.writeLed w.1 w.2 = (s, 0) := by
      refine State.writeLed_outside (fun hi => ?_) _
      rw [State.writeLed_count, if_pos hi] at h1
      exact absurd h1 (by omega)
    rw [hw] at h ⊢
    exact ih (by omega)

theorem rangeStatus_not_ignored (k : SelKind) (f0 t0 : Int) (w : Nat) : ¬(rangeStatus k f0 t0 w).isIgnored := by
  unfold rangeStatus
  split
  · decide
  · split
    · decide
    · split <;> decide

theorem gradStatus_not_ignored (steps : Int) (w : Nat) : ¬(gradStatus steps w).isIgnored := by
  unfold gradStatus; split <;> decide

/-- The status of a range writer as its code (R133, R237). -/
theorem statusCode_rangeStatus (k : SelKind) (f0 t0 : Int) (w : Nat) :
    statusCode (rangeStatus k f0 t0 w) =
      if k = .malformed then 0x05#8 else if t0 < f0 then 0x06#8 else if (w : Int) < t0 - f0 + 1 then 0x07#8 else 0x00#8 := by
  unfold rangeStatus
  split
  · rfl
  · split
    · rfl
    · split <;> rfl

/-- A command that writes LEDs, flushes and answers. -/
theorem State.flushedAs_of_sameButBuf {s t : State} (h : s.sameButBuf t) (ht : t.trace = s.trace) (st : Status)
    (v : BitVec 32) : s.flushedAs (t.flush.respond st v) (statusCode st) v := by
  obtain ⟨h1, h2, h3, h4, h5, h6⟩ := h
  exact ⟨⟨h1, h2, h3, h4, h5, h6⟩, by simp [ht, h5]⟩

/-- What WriteRange leaves in any state: a flush and a response, or, with nothing written and FLUSH_ON_EMPTY false, the
response alone (R133). -/
theorem State.writeRange_cases (s : State) (sel : Selection) (color : Color) :
    ∃ (st : Status) (w : Nat), ¬st.isIgnored ∧
      (((0 < w ∨ s.params.flushOnEmpty = true) ∧
          s.flushedAs (s.writeRange sel color) (statusCode st) (BitVec.ofNat 32 w) ∧
          (s.bufOk → (s.writeRange sel color).bufOk)) ∨
        (w = 0 ∧ s.params.flushOnEmpty = false ∧ s.writeRange sel color = s.answered (statusCode st) 0#32)) ∧
      w ≤ s.n := by
  unfold State.writeRange
  dsimp only
  generalize hf : (if sel.kind = .malformed then 0 else sel.f0) = f0
  generalize ht : (if sel.kind = .malformed then -1 else sel.t0) = t0
  generalize hw : ((intRange (max f0 0) (min t0 ((s.n : Int) - 1))).map fun i => (i, color)) = ws
  refine ⟨rangeStatus sel.kind f0 t0 (s.writeLeds ws).2, (s.writeLeds ws).2, rangeStatus_not_ignored _ _ _ _, ?_, ?_⟩
  · by_cases h : 0 < (s.writeLeds ws).2 ∨ s.params.flushOnEmpty = true
    · rw [if_pos h]
      exact .inl ⟨h, State.flushedAs_of_sameButBuf (State.writeLeds_sameButBuf s ws) (by simp) _ _,
        fun hs => State.writeLeds_bufOk hs ws⟩
    · rw [if_neg h]
      have h0 : (s.writeLeds ws).2 = 0 := by omega
      refine .inr ⟨h0, by simpa using fun hp => h (.inr hp), ?_⟩
      rw [State.writeLeds_of_count_zero h0, h0]
      rfl
  · rw [State.writeLeds_count]
    refine le_trans List.countP_le_length ?_
    rw [← hw, List.length_map, length_intRange]
    omega

/-- The full-strip writer in any state: a flush and the answer (ST_OK, n) (R136). -/
theorem State.writeAll_frame (s : State) (color : Color) :
    s.flushedAs (s.writeAll color) (statusCode .ok) (BitVec.ofNat 32 s.n) ∧ (s.bufOk → (s.writeAll color).bufOk) :=
  ⟨State.flushedAs_of_sameButBuf (State.writeLeds_sameButBuf s _) (by simp) _ _, fun hs => State.writeLeds_bufOk hs _⟩

/-- All a command can do: answer only; start the strip; store the brightness; or write BUF, flush and answer. -/
theorem exec_cases {i : Instr} {s t : State} (h : exec i s = .next t) :
    (∃ (st : Status) (v : BitVec 32), (st.isIgnored → v = 0#32) ∧ t = s.answered (statusCode st) v) ∨
    (∃ (pin : Byte) (count : BitVec 16), i = .init pin count ∧ 1 ≤ count.toNat ∧ count.toNat ≤ s.params.maxLeds.toNat ∧
      t = { s with pin := pin, ledCount := count, buf := [], inited := true }.answered 0x00#8 0#32) ∨
    (∃ val : Byte, i = .setbrt val ∧ t = { s with bright := val }.answered 0x00#8 0#32) ∨
    (i.opcode ∈ [.setsel, .setrng, .setall, .clear, .shift, .rotate, .grad] ∧ s.inited = true ∧
      (s.bufOk → t.bufOk) ∧ ∃ (st : Status) (v : BitVec 32), ¬st.isIgnored ∧ s.flushedAs t (statusCode st) v) := by
  have ans : ∀ (st : Status) (v : BitVec 32) (u : State), (st.isIgnored → v = 0#32) → u = s.answered (statusCode st) v →
      ∃ (st : Status) (v : BitVec 32), (st.isIgnored → v = 0#32) ∧ u = s.answered (statusCode st) v :=
    fun st v _ h1 h2 => ⟨st, v, h1, h2⟩
  have wi : ∀ (k : State → State),
      (s.inited = true → (∃ (st : Status) (v : BitVec 32), (st.isIgnored → v = 0#32) ∧ k s = s.answered (statusCode st) v) ∨
        (s.bufOk → (k s).bufOk) ∧ ∃ (st : Status) (v : BitVec 32), ¬st.isIgnored ∧ s.flushedAs (k s) (statusCode st) v) →
      (∃ (st : Status) (v : BitVec 32), (st.isIgnored → v = 0#32) ∧ s.whenInited k = s.answered (statusCode st) v) ∨
        s.inited = true ∧ (s.bufOk → (s.whenInited k).bufOk) ∧
          ∃ (st : Status) (v : BitVec 32), ¬st.isIgnored ∧ s.flushedAs (s.whenInited k) (statusCode st) v := by
    intro k hk
    cases hi : s.inited with
    | false => exact .inl (ans .noInit 0#32 _ (fun _ => rfl) (State.whenInited_neg hi k))
    | true =>
      rw [State.whenInited_pos hi]
      exact (hk hi).imp_right fun h => ⟨rfl, h⟩
  have wr : ∀ (sel : Selection) (color : Color),
      (∃ (st : Status) (v : BitVec 32), (st.isIgnored → v = 0#32) ∧ s.writeRange sel color = s.answered (statusCode st) v) ∨
        (s.bufOk → (s.writeRange sel color).bufOk) ∧
          ∃ (st : Status) (v : BitVec 32), ¬st.isIgnored ∧ s.flushedAs (s.writeRange sel color) (statusCode st) v := by
    intro sel color
    obtain ⟨st, w, hst, h, -⟩ := State.writeRange_cases s sel color
    rcases h with ⟨-, h2, h3⟩ | ⟨-, -, h3⟩
    · exact .inr ⟨h3, st, _, hst, h2⟩
    · exact .inl (ans st 0#32 _ (fun _ => rfl) h3)
  cases i <;> cases h
  case nop => exact .inl (ans .ok 0#32 _ (fun _ => rfl) rfl)
  case init pin count =>
    split
    · exact .inl (ans .badCount 0#32 _ (fun _ => rfl) rfl)
    · rename_i hc
      rw [not_or, not_lt] at hc
      exact .inr (.inl ⟨pin, count, rfl, Nat.pos_of_ne_zero fun h => hc.1 (BitVec.eq_of_toNat_eq h), hc.2, rfl⟩)
  case setbrt val => exact .inr (.inr (.inl ⟨val, rfl, rfl⟩))
  case pack r g b => exact .inl (ans .ok _ _ (fun h => absurd h (by decide)) rfl)
  case scale color => exact .inl (ans .ok _ _ (fun h => absurd h (by decide)) rfl)
  case hsl2rgb hue sat lum => exact .inl (ans .ok _ _ (fun h => absurd h (by decide)) rfl)
  case encrng first last8 =>
    split
    · exact .inl (ans .badArg 0#32 _ (fun _ => rfl) rfl)
    · exact .inl (ans .ok _ _ (fun h => absurd h (by decide)) rfl)
  case rdcfg reg =>
    split
    · exact .inl (ans .ok _ _ (fun h => absurd h (by decide)) rfl)
    · exact .inl (ans .range 0#32 _ (fun _ => rfl) rfl)
  case setsel sel color =>
    exact (wi _ fun _ => wr (decodeSel sel) color).imp_right fun h => .inr (.inr ⟨by simp [Instr.opcode], h⟩)
  case setrng first last color =>
    exact (wi _ fun _ => wr _ color).imp_right fun h => .inr (.inr ⟨by simp [Instr.opcode], h⟩)
  case setall color =>
    exact (wi _ fun _ => .inr ⟨(State.writeAll_frame s color).2, .ok, _, by decide, (State.writeAll_frame s color).1⟩).imp_right
      fun h => .inr (.inr ⟨by simp [Instr.opcode], h⟩)
  case clear =>
    exact (wi _ fun _ => .inr ⟨(State.writeAll_frame s 0x000000#24).2, .ok, _, by decide, (State.writeAll_frame s 0x000000#24).1⟩).imp_right
      fun h => .inr (.inr ⟨by simp [Instr.opcode], h⟩)
  case shift off =>
    refine (wi _ fun _ => ?_).imp_right fun h => .inr (.inr ⟨by simp [Instr.opcode], h⟩)
    split
    · exact .inl (ans .noop 0#32 _ (fun _ => rfl) rfl)
    · have key := State.assignLeds_spec s (shiftedLed s off)
      exact .inr ⟨fun _ => key.2.1, .ok, 0#32, by decide, key.1⟩
  case rotate off =>
    refine (wi _ fun _ => ?_).imp_right fun h => .inr (.inr ⟨by simp [Instr.opcode], h⟩)
    split
    · exact .inl (ans .noop 0#32 _ (fun _ => rfl) rfl)
    · split
      · exact .inl (ans .noop 0#32 _ (fun _ => rfl) rfl)
      · have key := State.assignLeds_spec s (rotatedLed s (remTrunc off s.n))
        exact .inr ⟨fun _ => key.2.1, .ok, 0#32, by decide, key.1⟩
  case grad start stop hue1 hue2 =>
    refine (wi _ fun _ => ?_).imp_right fun h => .inr (.inr ⟨by simp [Instr.opcode], h⟩)
    exact .inr ⟨fun hs => State.writeLeds_bufOk hs _, gradStatus _ _, _, gradStatus_not_ignored _ _,
      State.flushedAs_of_sameButBuf (State.writeLeds_sameButBuf s _) (by simp) _ _⟩
  case rdled idx =>
    cases hi : s.inited with
    | false => exact .inl (ans .noInit 0#32 _ (fun _ => rfl) (State.whenInited_neg hi _))
    | true =>
      rw [State.whenInited_pos hi]
      split
      · exact .inl (ans .range 0#32 _ (fun _ => rfl) rfl)
      · exact .inl (ans .ok _ _ (fun h => absurd h (by decide)) rfl)
  case rdbuf addr =>
    cases hi : s.inited with
    | false => exact .inl (ans .noInit 0#32 _ (fun _ => rfl) (State.whenInited_neg hi _))
    | true =>
      rw [State.whenInited_pos hi]
      split
      · exact .inl (ans .ok _ _ (fun h => absurd h (by decide)) rfl)
      · exact .inl (ans .range 0#32 _ (fun _ => rfl) rfl)

/-! ## The nine buffer commands once the engine is initialised (R236) -/

theorem exec_setsel {s : State} (h : s.inited = true) (sel : BitVec 32) (color : Color) :
    exec (.setsel sel color) s = .next (s.writeRange (decodeSel sel) color) := by
  simp only [exec, execSetsel, State.whenInited_pos h]

theorem exec_setrng {s : State} (h : s.inited = true) (first last : BitVec 16) (color : Color) :
    exec (.setrng first last color) s =
      .next (s.writeRange { kind := .range, f0 := (first.toNat : Int) - 1, t0 := (last.toNat : Int) - 1 } color) := by
  simp only [exec, execSetrng, State.whenInited_pos h]

theorem exec_setall {s : State} (h : s.inited = true) (color : Color) :
    exec (.setall color) s = .next (s.writeAll color) := by
  simp only [exec, execSetall, State.whenInited_pos h]

theorem exec_clear {s : State} (h : s.inited = true) : exec .clear s = .next (s.writeAll 0x000000#24) := by
  simp only [exec, execClear, State.whenInited_pos h]

theorem exec_shift {s : State} (h : s.inited = true) {off : Int} (ho : off ≠ 0) :
    exec (.shift off) s = .next ((s.assignLeds (shiftedLed s off)).flush.respond .ok 0#32) := by
  simp only [exec, execShift, State.whenInited_pos h, if_neg ho]

/-- The LED that SHIFT brings to place `i`, and the blank where there is none (R172). -/
theorem shiftedLed_inside {s : State} {off : Int} {i : Nat} (h : 0 ≤ (i : Int) - off ∧ (i : Int) - off < s.n) :
    shiftedLed s off i = s.led ((i : Int) - off).toNat := if_pos h

theorem shiftedLed_outside {s : State} {off : Int} {i : Nat} (h : ¬(0 ≤ (i : Int) - off ∧ (i : Int) - off < s.n)) :
    shiftedLed s off i = Led.blank := if_neg h

/-- The LED that ROTATE brings to place `i` (R174). -/
theorem rotatedLed_eq (s : State) (k : Int) (i : Nat) : rotatedLed s k i = s.led (((i : Int) - k) % s.n).toNat := rfl

theorem exec_rotate {s : State} (h : s.inited = true) {off : Int} (hn : 1 < s.n) (ho : off.tmod s.n ≠ 0) :
    exec (.rotate off) s = .next ((s.assignLeds (rotatedLed s (off.tmod s.n))).flush.respond .ok 0#32) := by
  simp only [exec, execRotate, State.whenInited_pos h, if_neg (Nat.not_le.2 hn)]
  exact congrArg _ (if_neg (c := remTrunc off s.n = 0) ho)

theorem exec_rotate_noop {s : State} (h : s.inited = true) {off : Int} (ho : s.n ≤ 1 ∨ off.tmod s.n = 0) :
    exec (.rotate off) s = .next (s.answered 0x08#8 0#32) := by
  simp only [exec, execRotate, State.whenInited_pos h]
  split
  · rfl
  · exact congrArg _ (if_pos (c := remTrunc off s.n = 0) (ho.resolve_left ‹_›))

theorem exec_grad {s : State} (h : s.inited = true) (start stop : BitVec 16) (hue1 hue2 : BitVec 12) :
    exec (.grad start stop hue1 hue2) s =
      .next ((s.writeLeds (gradWrites (gradSpan s.n start.toNat stop.toNat) hue1.toNat hue2.toNat)).1.flush.respond
        (gradStatus (gradSteps (gradSpan s.n start.toNat stop.toNat))
          (s.writeLeds (gradWrites (gradSpan s.n start.toNat stop.toNat) hue1.toNat hue2.toNat)).2)
        (BitVec.ofNat 32 (s.writeLeds (gradWrites (gradSpan s.n start.toNat stop.toNat) hue1.toNat hue2.toNat)).2)) := by
  simp only [exec, execGrad, State.whenInited_pos h]

/-- Every command has a next state (R230). -/
theorem exec_next (i : Instr) (s : State) : ∃ t, exec i s = .next t := by
  cases i <;> exact ⟨_, rfl⟩

end Sys2Proof.Machine
end

