-- ==== Sys2Proof/Laws/Gradient.lean ====
section
/-! SUPPORT. The gradient's span and its list of writes, each said once. -/

namespace Sys2Proof.Machine

/-- Index conditioning as minimum and maximum (R192). -/
theorem gradSpan_eq (n start stop : Nat) :
    (gradSpan n start stop).s0 = min (max (min (start : Int) stop - 1) 0) n ∧
      (gradSpan n start stop).e0 = min (max (max (start : Int) stop - 1) 0) n := by
  simp only [gradSpan, clamp]
  split <;> constructor <;> omega

/-- The span is never empty and reaches at most one past the strip (R192). -/
theorem gradSpan_bounds (n start stop : Nat) :
    0 ≤ (gradSpan n start stop).s0 ∧ (gradSpan n start stop).s0 ≤ (gradSpan n start stop).e0 ∧
      (gradSpan n start stop).e0 ≤ n := by
  rw [(gradSpan_eq n start stop).1, (gradSpan_eq n start stop).2]
  omega

/-- The hue of LED `i` of a span (R194). -/
def gradHueAt (g : GradSpan) (hue1 hue2 : Nat) (i : Int) : Int :=
  if gradSteps g = 1 then (hue1 : Int) + gradHueStep hue1 hue2 (gradSteps g)
  else if i = g.s0 then hue1
  else if i = g.e0 then hue2
  else ((hue1 : Int) * 100 + (i - g.s0) * gradHueStep hue1 hue2 (gradSteps g)).tdiv 100

/-- Every write of a gradient is of an LED of the span, with the colour of that LED's hue. -/
theorem mem_gradWrites {g : GradSpan} {hue1 hue2 : Nat} (hg : g.s0 ≤ g.e0) {w : Int × Color}
    (h : w ∈ gradWrites g hue1 hue2) :
    g.s0 ≤ w.1 ∧ w.1 ≤ g.e0 ∧ w.2 = gradColor (gradHueAt g hue1 hue2 w.1) := by
  unfold gradWrites at h
  dsimp only at h
  split at h
  · rename_i h1
    rw [List.mem_singleton.1 h]
    exact ⟨le_rfl, hg, by simp [gradHueAt, h1]⟩
  · rename_i h1
    rw [List.cons_append, List.mem_cons, List.mem_append, List.mem_map, List.mem_singleton] at h
    have hs : gradSteps g = g.e0 - g.s0 + 1 := rfl
    rcases h with rfl | ⟨i, hi, rfl⟩ | rfl
    · exact ⟨le_rfl, hg, by simp [gradHueAt, h1]⟩
    · have := mem_intRange.1 hi
      refine ⟨by simp; omega, by simp; omega, ?_⟩
      simp only [gradHueAt, if_neg h1]
      rw [if_neg (by omega), if_neg (by omega), add_sub_cancel_left]
    · refine ⟨hg, le_rfl, ?_⟩
      simp only [gradHueAt, if_neg h1, if_true]
      rw [if_neg (by omega)]

/-- Every LED of the span is written. -/
theorem exists_gradWrites {g : GradSpan} (hue1 hue2 : Nat) {i : Int} (h1 : g.s0 ≤ i) (h2 : i ≤ g.e0) :
    ∃ w ∈ gradWrites g hue1 hue2, w.1 = i := by
  have hs : gradSteps g = g.e0 - g.s0 + 1 := rfl
  unfold gradWrites
  dsimp only
  split
  · exact ⟨_, List.mem_singleton.2 rfl, by simp; omega⟩
  · by_cases e1 : i = g.s0
    · exact ⟨_, List.mem_cons_self, e1.symm⟩
    · by_cases e2 : i = g.e0
      · exact ⟨(g.e0, gradColor hue2), by simp, e2.symm⟩
      · refine ⟨_, List.mem_cons_of_mem _ (List.mem_append_left _ (List.mem_map.2
          ⟨i - g.s0, mem_intRange.2 ⟨by omega, by omega⟩, rfl⟩)), by simp⟩

/-- How many of a gradient's writes fall inside the strip: all, but for the LED past the strip when the span reaches it (R192,
R196). -/
theorem countP_gradWrites (n start stop hue1 hue2 : Nat) :
    let g := gradSpan n start stop
    (((gradWrites g hue1 hue2).countP fun (w : Int × Color) => decide (0 ≤ w.1 ∧ w.1 < (n : Int)) : Nat) : Int) =
      if g.e0 = n then gradSteps g - 1 else gradSteps g := by
  intro g
  obtain ⟨b1, b2, b3⟩ := gradSpan_bounds n start stop
  have hg : g = gradSpan n start stop := rfl
  rw [← hg] at b1 b2 b3
  have hs : gradSteps g = g.e0 - g.s0 + 1 := rfl
  unfold gradWrites
  dsimp only
  split
  · simp only [List.countP_cons, List.countP_nil, decide_eq_true_eq]
    split <;> split <;> omega
  · have hmid : ∀ w ∈ (intRange 1 (gradSteps g - 2)).map fun i =>
        (g.s0 + i, gradColor (((hue1 : Int) * 100 + i * gradHueStep hue1 hue2 (gradSteps g)).tdiv 100)),
        decide (0 ≤ w.1 ∧ w.1 < (n : Int)) = true := by
      intro w hw
      obtain ⟨i, hi, rfl⟩ := List.mem_map.1 hw
      have := mem_intRange.1 hi
      simp only [decide_eq_true_eq]
      omega
    rw [List.cons_append, List.countP_cons, List.countP_append, List.countP_eq_length.2 hmid]
    simp only [List.countP_cons, List.countP_nil, decide_eq_true_eq, List.length_map, length_intRange]
    split <;> split <;> split <;> omega

end Sys2Proof.Machine
end

