-- ==== Sys2Proof/Laws/PerInstr.lean ====
section
/-! SUPPORT. The per-instruction family EncodeInRow: the word the encoder writes passes the match and mask test of the
command's row, so its opcode is the row's and every bit the format reserves is 0 (spec/30_encoding.md R62, R66, R68). -/

namespace Sys2Proof.Laws.EncodeInRow

/-- The encoded word lies in the row of the command's opcode. -/
def Statement (i : Instr) : Prop := encode i &&& opcodeMask i.opcode = opcodeMatch i.opcode

/-- The row test of an encoded word: its operand bits keep inside the bits the row leaves free. -/
theorem of_operands {i : Instr} (o : Opcode) (hi : i.opcode = o) (ho : o ≠ .encrng)
    (h : (encodeOperands i).toNat < 2 ^ rowShift o) : Statement i := by
  rw [Statement, hi, row_iff _ ho, encode_toNat, hi, opcodeMatch_toNat]
  have e : (opcodeByte o).toNat * 2 ^ 56 = (opcodeByte o).toNat * 2 ^ (56 - rowShift o) * 2 ^ rowShift o := by
    rw [Nat.mul_assoc, ← Nat.pow_add, Nat.sub_add_cancel (rowShift_le o)]
  rw [e, Nat.mul_comm _ (2 ^ rowShift o), Nat.mul_add_div (Nat.two_pow_pos _), Nat.div_eq_of_lt h,
    Nat.mul_div_cancel_left _ (Nat.two_pow_pos _), Nat.add_zero]

theorem nop : Statement .nop := of_operands .nop rfl (by decide) (by decide)

theorem init (p : BitVec 8) (c : BitVec 16) : Statement (.init p c) := by
  refine of_operands .init rfl (by decide) ?_
  have := p.isLt
  have := c.isLt
  simp only [rowShift, encodeOperands, toNat_append_add, BitVec.toNat_ofNat]
  omega

theorem setbrt (v : BitVec 8) : Statement (.setbrt v) := by
  refine of_operands .setbrt rfl (by decide) ?_
  have := v.isLt
  simp only [rowShift, encodeOperands, toNat_append_add, BitVec.toNat_ofNat]
  omega

theorem setsel (x : BitVec 32) (c : Color) : Statement (.setsel x c) := by
  refine of_operands .setsel rfl (by decide) ?_
  have := x.isLt
  have := c.isLt
  simp only [rowShift, encodeOperands, toNat_append_add]
  omega

theorem setrng (f l : BitVec 16) (c : Color) : Statement (.setrng f l c) := by
  refine of_operands .setrng rfl (by decide) ?_
  have := f.isLt
  have := l.isLt
  have := c.isLt
  simp only [rowShift, encodeOperands, toNat_append_add]
  omega

theorem setall (c : Color) : Statement (.setall c) := by
  refine of_operands .setall rfl (by decide) ?_
  have := c.isLt
  simp only [rowShift, encodeOperands, toNat_append_add, BitVec.toNat_ofNat]
  omega

theorem clear : Statement .clear := of_operands .clear rfl (by decide) (by decide)

theorem shift (d : Int) : Statement (.shift d) := by
  refine of_operands .shift rfl (by decide) ?_
  have := (BitVec.ofInt 16 d).isLt
  simp only [rowShift, encodeOperands, toNat_append_add, BitVec.toNat_ofNat]
  omega

theorem rotate (d : Int) : Statement (.rotate d) := by
  refine of_operands .rotate rfl (by decide) ?_
  have := (BitVec.ofInt 16 d).isLt
  simp only [rowShift, encodeOperands, toNat_append_add, BitVec.toNat_ofNat]
  omega

theorem grad (a b : BitVec 16) (h k : BitVec 12) : Statement (.grad a b h k) := by
  refine of_operands .grad rfl (by decide) ?_
  have := a.isLt
  have := b.isLt
  have := h.isLt
  have := k.isLt
  simp only [rowShift, encodeOperands, toNat_append_add]
  omega

theorem pack (r g b : BitVec 8) : Statement (.pack r g b) := by
  refine of_operands .pack rfl (by decide) ?_
  have := r.isLt
  have := g.isLt
  have := b.isLt
  simp only [rowShift, encodeOperands, toNat_append_add, BitVec.toNat_ofNat]
  omega

theorem scale (c : Color) : Statement (.scale c) := by
  refine of_operands .scale rfl (by decide) ?_
  have := c.isLt
  simp only [rowShift, encodeOperands, toNat_append_add, BitVec.toNat_ofNat]
  omega

theorem hsl2rgb (h : BitVec 12) (x l : BitVec 8) : Statement (.hsl2rgb h x l) := by
  refine of_operands .hsl2rgb rfl (by decide) ?_
  have := h.isLt
  have := x.isLt
  have := l.isLt
  simp only [rowShift, encodeOperands, toNat_append_add, BitVec.toNat_ofNat]
  omega

theorem encrng (f : BitVec 16) (l : BitVec 8) : Statement (.encrng f l) := by
  rw [Statement, Instr.opcode, and_encrngMask_iff, encode_toNat]
  have := f.isLt
  have := l.isLt
  simp only [Instr.opcode, opcodeByte, encodeOperands, toNat_append_add, BitVec.toNat_ofNat]
  omega

theorem rdcfg (r : BitVec 8) : Statement (.rdcfg r) := by
  refine of_operands .rdcfg rfl (by decide) ?_
  have := r.isLt
  simp only [rowShift, encodeOperands, toNat_append_add, BitVec.toNat_ofNat]
  omega

theorem rdled (k : BitVec 16) : Statement (.rdled k) := by
  refine of_operands .rdled rfl (by decide) ?_
  have := k.isLt
  simp only [rowShift, encodeOperands, toNat_append_add, BitVec.toNat_ofNat]
  omega

theorem rdbuf (a : BitVec 24) : Statement (.rdbuf a) := by
  refine of_operands .rdbuf rfl (by decide) ?_
  have := a.isLt
  simp only [rowShift, encodeOperands, toNat_append_add, BitVec.toNat_ofNat]
  omega

end Sys2Proof.Laws.EncodeInRow
end

