-- ==== Sys2Proof/Laws/Ports.lean ====
section
/-! SUPPORT. The operations do not read the ports: each does the same whatever the outputs so far and the host's coming actions
are (spec/10_state.md R22). -/

namespace Sys2Proof.Machine

/-- `s` with other outputs so far and other coming actions of the host. -/
def State.withPorts (s : State) (trace : List TraceEvent) (pending : List HostEvent) : State :=
  { s with trace := trace, pending := pending }

/-- `t`, reached from `s`, as it is reached from `s` with other ports: the outputs `t` adds come after the other outputs. -/
def State.rePorted (s t : State) (trace : List TraceEvent) (pending : List HostEvent) : State :=
  t.withPorts (trace ++ t.trace.drop s.trace.length) pending

section
variable (s : State) (trace : List TraceEvent) (pending : List HostEvent)

@[simp] theorem State.withPorts_params : (s.withPorts trace pending).params = s.params := rfl
@[simp] theorem State.withPorts_inited : (s.withPorts trace pending).inited = s.inited := rfl
@[simp] theorem State.withPorts_ledCount : (s.withPorts trace pending).ledCount = s.ledCount := rfl
@[simp] theorem State.withPorts_bright : (s.withPorts trace pending).bright = s.bright := rfl
@[simp] theorem State.withPorts_pin : (s.withPorts trace pending).pin = s.pin := rfl
@[simp] theorem State.withPorts_buf : (s.withPorts trace pending).buf = s.buf := rfl
@[simp] theorem State.withPorts_pending : (s.withPorts trace pending).pending = pending := rfl
@[simp] theorem State.withPorts_trace : (s.withPorts trace pending).trace = trace := rfl
@[simp] theorem State.withPorts_n : (s.withPorts trace pending).n = s.n := rfl
@[simp] theorem State.withPorts_bytes : (s.withPorts trace pending).bytes = s.bytes := rfl
@[simp] theorem State.withPorts_memRead (a : Nat) : (s.withPorts trace pending).memRead a = s.memRead a := rfl
@[simp] theorem State.withPorts_readLed (i : Nat) : (s.withPorts trace pending).readLed i = s.readLed i := rfl
@[simp] theorem State.withPorts_cfgRead (reg : Byte) : cfgRead (s.withPorts trace pending) reg = cfgRead s reg := rfl
@[simp] theorem State.withPorts_shiftedLed (off : Int) : shiftedLed (s.withPorts trace pending) off = shiftedLed s off := rfl
@[simp] theorem State.withPorts_rotatedLed (k : Int) : rotatedLed (s.withPorts trace pending) k = rotatedLed s k := rfl
@[simp] theorem State.withPorts_assignLeds (f : Nat → Led) :
    (s.withPorts trace pending).assignLeds f = (s.assignLeds f).withPorts trace pending := rfl

theorem State.withPorts_memWrite (a : Nat) (v : Byte) :
    (s.withPorts trace pending).memWrite a v = (s.memWrite a v).withPorts trace pending := by
  have hb : (s.withPorts trace pending).bufLen = s.bufLen := rfl
  unfold State.memWrite
  rw [hb]
  split <;> rfl

theorem State.withPorts_writeLed (i : Int) (color : Color) :
    (s.withPorts trace pending).writeLed i color =
      ((s.writeLed i color).1.withPorts trace pending, (s.writeLed i color).2) := by
  unfold State.writeLed
  rw [State.withPorts_n]
  split
  · simp only [State.withPorts_bright, State.withPorts_memWrite]
  · rfl

theorem State.withPorts_writeLeds (ws : List (Int × Color)) :
    (s.withPorts trace pending).writeLeds ws = ((s.writeLeds ws).1.withPorts trace pending, (s.writeLeds ws).2) := by
  induction ws generalizing s with
  | nil => rfl
  | cons w ws ih => simp only [State.writeLeds, State.withPorts_writeLed, ih]

/-- A response, with other ports. -/
theorem State.rePorted_respond {u : State} (h : u.trace = s.trace) (st : Status) (v : BitVec 32) :
    (u.withPorts trace pending).respond st v = s.rePorted (u.respond st v) trace pending := by
  simp [State.rePorted, h, State.withPorts, State.respond]

/-- A flush and a response, with other ports. -/
theorem State.rePorted_flush_respond {u : State} (h : u.trace = s.trace) (st : Status) (v : BitVec 32) :
    (u.withPorts trace pending).flush.respond st v = s.rePorted (u.flush.respond st v) trace pending := by
  have hb : ({ u with trace := trace, pending := pending } : State).bytes = u.bytes := rfl
  simp [State.rePorted, h, State.withPorts, State.respond, State.flush, hb]

theorem State.rePorted_writeRange (sel : Selection) (color : Color) :
    (s.withPorts trace pending).writeRange sel color = s.rePorted (s.writeRange sel color) trace pending := by
  unfold State.writeRange
  simp only [State.withPorts_writeLeds, State.withPorts_n, State.withPorts_params]
  generalize (if sel.kind = .malformed then (0 : Int) else sel.f0) = f0
  generalize (if sel.kind = .malformed then (-1 : Int) else sel.t0) = t0
  split
  · exact State.rePorted_flush_respond s trace pending (State.writeLeds_trace s _) _ _
  · exact State.rePorted_respond s trace pending (State.writeLeds_trace s _) _ _

theorem State.rePorted_writeAll (color : Color) :
    (s.withPorts trace pending).writeAll color = s.rePorted (s.writeAll color) trace pending := by
  unfold State.writeAll
  simp only [State.withPorts_writeLeds, State.withPorts_n]
  exact State.rePorted_flush_respond s trace pending (State.writeLeds_trace s _) _ _

theorem State.rePorted_whenInited {k : State → State}
    (h : k (s.withPorts trace pending) = s.rePorted (k s) trace pending) :
    (s.withPorts trace pending).whenInited k = s.rePorted (s.whenInited k) trace pending := by
  unfold State.whenInited
  rw [State.withPorts_inited]
  split
  · exact h
  · exact State.rePorted_respond s trace pending rfl _ _

end

end Sys2Proof.Machine
end

