-- ==== Sys2Proof/Laws/Selector.lean ====
section
/-! SUPPORT. The selector decode and the range encoder as arithmetic on numbers. -/

namespace Sys2Proof.Machine

/-- The three fields of a selector. -/
theorem selMarker_toNat (sel : BitVec 32) : (sel.extractLsb' 8 8).toNat = sel.toNat / 256 % 256 := by
  simp only [toNat_slice]; omega

theorem selFirst_toNat (sel : BitVec 32) : (sel.extractLsb' 16 16).toNat = sel.toNat / 65536 := by
  have := sel.isLt
  rw [toNat_slice]; omega

theorem selLast_toNat (sel : BitVec 32) : (sel.extractLsb' 0 8).toNat = sel.toNat % 256 := by
  rw [toNat_slice]; simp

/-- A malformed selector has the empty interval [0, −1], the one WriteRange takes for it. -/
theorem decodeSel_malformed {sel : BitVec 32} (h : (decodeSel sel).kind = .malformed) :
    (decodeSel sel).f0 = 0 ∧ (decodeSel sel).t0 = -1 := by
  unfold decodeSel at h ⊢
  dsimp only at h ⊢
  split
  · rename_i h1; simp [h1] at h
  · rename_i h1
    split
    · rename_i h2; simp [h1, h2] at h
    · exact ⟨rfl, rfl⟩

/-- The value of EncodeRange (R77). -/
theorem encodeRange_toNat {first : BitVec 16} (h : 1 ≤ first.toNat) (last8 : Byte) :
    (encodeRange first last8).toNat = (first.toNat - 1) * 65536 + 512 + last8.toNat := by
  have hf := first.isLt
  have hl := last8.isLt
  have e : encodeRange first last8 = ((first - 1#16) ++ 0x02#8 ++ last8 : BitVec 32) := by
    have h16 : (first.setWidth 32 - 1#32) <<< 16 = ((first - 1#16) ++ 0#16 : BitVec 32) := by
      rw [BitVec.toNat_eq, BitVec.toNat_shiftLeft, toNat_append_add, BitVec.toNat_sub, BitVec.toNat_sub,
        BitVec.toNat_setWidth, Nat.shiftLeft_eq]
      simp
      omega
    have h8 : 0x0200#32 ||| last8.setWidth 32 = (0#16 ++ (0x02#8 ++ last8) : BitVec 32) := by
      rw [BitVec.toNat_eq, BitVec.toNat_or, toNat_append_add, toNat_append_add, BitVec.toNat_setWidth,
        Nat.mod_eq_of_lt (by omega)]
      have := Nat.two_pow_add_eq_or_of_lt (i := 8) (b := last8.toNat) hl 2
      simp at this ⊢
      omega
    rw [encodeRange, BitVec.or_assoc, h16, h8, BitVec.toNat_eq, BitVec.toNat_or, toNat_append_add, toNat_append_add,
      toNat_append_add, toNat_append_add, toNat_append_add]
    have := Nat.two_pow_add_eq_or_of_lt (i := 16) (b := 512 + last8.toNat) (by omega) (first - 1#16).toNat
    rw [Nat.mul_comm] at this
    simp at this ⊢
    omega
  rw [e, toNat_append_add, toNat_append_add, BitVec.toNat_sub]
  simp
  omega

end Sys2Proof.Machine
end

