-- ==== Sys2Proof/Laws/Step.lean ====
section
/-! SUPPORT. What a step and a presented word do, each case said once. -/

namespace Sys2Proof.Machine

/-- With something pending, a step is the first of the host's actions. -/
theorem step_of_pending {s : State} {e : HostEvent} {rest : List HostEvent} (h : s.pending = e :: rest) :
    step s = runEvent e { s with pending := rest } := by
  simp [step, h]

/-- A word that decodes runs its command. -/
theorem runWord_of_ok {w : CmdWord} {i : Instr} (h : decode w = .ok i) (s : State) : runWord w s = exec i s := by
  simp [runWord, h]

/-- A word with a reserved opcode is answered ST_BADOP (R234). -/
theorem runWord_of_reservedOpcode {w : CmdWord} (h : decode w = .error .reservedOpcode) (s : State) :
    runWord w s = .next (s.answered 0x01#8 0#32) := by
  simp [runWord, h, ignoreWord, State.ignore_eq_answered, statusCode]

/-- A word with reserved bits set is answered ST_RSVD (R235). -/
theorem runWord_of_reservedBits {w : CmdWord} (h : decode w = .error .reservedBits) (s : State) :
    runWord w s = .next (s.answered 0x02#8 0#32) := by
  simp [runWord, h, ignoreWord, State.ignore_eq_answered, statusCode]

/-- All a presented word can do: run a command, or be answered with one of the two statuses of R234 and R235. -/
theorem runWord_cases (w : CmdWord) (s : State) :
    (∃ i, decode w = .ok i ∧ runWord w s = exec i s) ∨ runWord w s = .next (s.answered 0x01#8 0#32) ∨
      runWord w s = .next (s.answered 0x02#8 0#32) := by
  rcases h : decode w with e | i
  · cases e
    · exact .inr (.inl (runWord_of_reservedOpcode h s))
    · exact .inr (.inr (runWord_of_reservedBits h s))
  · exact .inl ⟨i, rfl, runWord_of_ok h s⟩

end Sys2Proof.Machine
end

