-- ==== Sys2Proof/Tests/Slice0.lean ====
section
/-! SUPPORT. Checks of the model on fixed values: ill-formed commands are refused, words written out from the formats of
spec/30_encoding.md decode to their commands, one step on a small strip gives what spec/95_test_vectors.md lists, and for each
statement with hypotheses a concrete state and operands that meet them. -/

namespace Sys2Proof.Tests

open Sys2Proof Sys2Proof.Machine

/-! ## Small states -/

/-- An initialised strip of `n` LEDs on pin 15 that holds `bytes`, nothing emitted yet (the recommended parameters). -/
def strip (n : BitVec 16) (bright : Byte) (bytes : List Byte) : State :=
  { State.powerOn Params.recommended with
    inited := true, ledCount := n, bright := bright, pin := 15#8, buf := Memory.ofBytes 0 bytes }

/-- Every strip that fits holds the invariant. -/
theorem strip_inv {n : BitVec 16} {bright : Byte} {bytes : List Byte} (h1 : 1 ≤ n.toNat) (h2 : n.toNat ≤ 256)
    (h3 : bytes.length ≤ 3 * n.toNat) : (strip n bright bytes).Inv where
  params_wf := (by decide : Params.recommended.wf)
  count_of_inited := fun _ => ⟨h1, h2⟩
  count_of_uninited := fun h => absurd h (by simp [strip])
  pin_of_uninited := fun h => absurd h (by simp [strip])
  buf_wf := Memory.wf_ofBytes _ _
  buf_inside := fun c hc => by
    have := (Memory.mem_ofBytes hc).2.1
    simp only [State.bufLen, State.n, strip]
    omega

/-- The four LEDs of spec/95_test_vectors.md section 2.6. -/
def four : State :=
  strip 4#16 255#8 [0x02#8, 0x01#8, 0x03#8, 0x05#8, 0x04#8, 0x06#8, 0x08#8, 0x07#8, 0x09#8, 0x0b#8, 0x0a#8, 0x0c#8]

theorem four_inv : four.Inv := strip_inv (by decide) (by decide) (by decide)

/-- A dark strip of one LED. -/
def one : State := strip 1#16 255#8 []

theorem one_inv : one.Inv := strip_inv (by decide) (by decide) (by decide)

/-- The state a step or a command answers, where it answers one. -/
def nextOf : Host.Outcome State Fault Refusal → Option State
  | .next t => some t
  | .fault _ => none
  | .refused _ => none

/-- What a command emits on a state that has emitted nothing. -/
def emitted (i : Instr) (s : State) : Option (List TraceEvent) := (nextOf (exec i s)).map State.trace

/-- The bytes of the buffer after a command. -/
def bytesAfter (i : Instr) (s : State) : Option (List Byte) := (nextOf (exec i s)).map State.bytes

/-- The state with one action of the host to come. -/
def offered (e : HostEvent) (s : State) : State := { s with pending := [e] }

/-! ## Well-formedness -/

/-- R63: an OFF above 32767 has no encoding. -/
theorem test_shift_off_too_large : (Instr.shift 32768).wellFormed = false := by decide
/-- R63: an OFF below −32768 has no encoding. -/
theorem test_shift_off_too_small : (Instr.shift (-32769)).wellFormed = false := by decide
theorem test_rotate_off_too_large : (Instr.rotate 32768).wellFormed = false := by decide
theorem test_rotate_off_too_small : (Instr.rotate (-32769)).wellFormed = false := by decide

/-! ## Decoding: words written out field by field from R62 and R66 -/

theorem test_decode_nop : decode 0x0000000000000000#64 = .ok .nop := by decide
/-- 01, reserved, PIN 0F, COUNT 0005. -/
theorem test_decode_init : decode 0x01000000000F0005#64 = .ok (.init 0x0F#8 5#16) := by decide
theorem test_decode_setbrt : decode 0x0200000000000032#64 = .ok (.setbrt 50#8) := by decide
/-- 03, SEL 00010204, COLOR 102030. -/
theorem test_decode_setsel : decode 0x0300010204102030#64 = .ok (.setsel 0x00010204#32 0x102030#24) := by decide
/-- 04, FROM 0001, TO 0005, COLOR FF0000. -/
theorem test_decode_setrng : decode 0x0400010005FF0000#64 = .ok (.setrng 1#16 5#16 0xFF0000#24) := by decide
theorem test_decode_setall : decode 0x0500000000123456#64 = .ok (.setall 0x123456#24) := by decide
theorem test_decode_clear : decode 0x0600000000000000#64 = .ok .clear := by decide
/-- OFF is two's complement: 8000 is −32768. -/
theorem test_decode_shift : decode 0x0700000000008000#64 = .ok (.shift (-32768)) := by decide
theorem test_decode_rotate : decode 0x080000000000FFFE#64 = .ok (.rotate (-2)) := by decide
/-- 09, START 0004, END 0002, HUE1 12C, HUE2 03C. -/
theorem test_decode_grad : decode 0x090004000212C03C#64 = .ok (.grad 4#16 2#16 300#12 60#12) := by decide
theorem test_decode_pack : decode 0x1000000000123456#64 = .ok (.pack 0x12#8 0x34#8 0x56#8) := by decide
theorem test_decode_scale : decode 0x1100000000FF8001#64 = .ok (.scale 0xFF8001#24) := by decide
/-- 12, HUE 0C8, SAT 32, LUM 19. -/
theorem test_decode_hsl2rgb : decode 0x1200000000C83219#64 = .ok (.hsl2rgb 200#12 50#8 25#8) := by decide
/-- 13, FROM 0002, reserved byte, TO8 04. -/
theorem test_decode_encrng : decode 0x1300000000020004#64 = .ok (.encrng 2#16 4#8) := by decide
theorem test_decode_rdcfg : decode 0x2000000000000005#64 = .ok (.rdcfg 5#8) := by decide
theorem test_decode_rdled : decode 0x2100000000000001#64 = .ok (.rdled 1#16) := by decide
theorem test_decode_rdbuf : decode 0x220000000000000E#64 = .ok (.rdbuf 14#24) := by decide

/-- R67, R234: a reserved opcode wins over reserved bits. -/
theorem test_decode_badop : decode 0xFFFFFFFFFFFFFFFF#64 = .error .reservedOpcode := by decide
/-- R68: ENCRNG's reserved byte in the middle of its word. -/
theorem test_decode_rsvd : decode 0x1300000000020104#64 = .error .reservedBits := by decide
/-- The table's numbering: the word's own. -/
theorem test_decodeTableWord : decodeTableWord 64 0x2100000000000001 = some (.rdled 1#16) := by decide
/-- R56: the opcode byte comes first in a listing. -/
theorem test_wordBytes : wordBytes 0x0400010005FF0000#64 = [0x04#8, 0#8, 1#8, 0#8, 5#8, 0xFF#8, 0#8, 0#8] := by
  decide
/-- R71, R72: a line with a comment, and a pseudo-instruction. -/
theorem test_assemble_line :
    assembleLine ['S','E','T','I','D','X',' ','1',',',' ','0','x','0','0','7','F','F','F',' ',';','a'] =
      some (.setsel 1#32 0x007FFF#24) := by decide
/-- R71's example `ROTATE -2`, and the same line as spec/95_test_vectors.md writes it, with U+2212. -/
theorem test_assemble_minus :
    assembleLine ['R','O','T','A','T','E',' ','-','2'] = some (.rotate (-2)) ∧
    assembleLine ['R','O','T','A','T','E',' ','−','2'] = some (.rotate (-2)) := by decide

/-! ## One step of each command (spec/95_test_vectors.md) -/

theorem test_nop : emitted .nop State.reset = some [.response 0x00#8 0#32] := by decide
/-- Section 2.5: `INIT 255, 1` makes a 3-byte buffer of zeroes on pin 255. -/
theorem test_init : (nextOf (exec (.init 255#8 1#16) four)).map (fun t => (t.pin, t.bytes)) =
    some (255#8, [0#8, 0#8, 0#8]) := by decide
/-- Section 2.5: 257 LEDs are one too many. -/
theorem test_init_badcount : emitted (.init 7#8 257#16) State.reset = some [.response 0x04#8 0#32] := by decide
theorem test_setbrt : (nextOf (exec (.setbrt 0#8) four)).map (fun t => (t.bright, t.buf)) = some (0#8, four.buf) := by
  decide
/-- Section 2.5, BRIGHT 128: LED 1 becomes 40 00 80. -/
theorem test_setsel : emitted (.setsel 1#32 0x007FFF#24) (strip 1#16 128#8 []) =
    some [.flush 15#8 [0x40#8, 0#8, 0x80#8], .response 0x00#8 1#32] := by decide
/-- R134: selector 17 is malformed; FLUSH_ON_EMPTY makes it flush. -/
theorem test_setsel_malformed : emitted (.setsel 17#32 0x007FFF#24) one =
    some [.flush 15#8 [0#8, 0#8, 0#8], .response 0x05#8 0#32] := by decide
/-- The interval 1 to 5 on one LED is clipped to it; channel order green, red, blue. -/
theorem test_setrng : emitted (.setrng 1#16 5#16 0xFF0000#24) (strip 1#16 50#8 []) =
    some [.flush 15#8 [0#8, 0x32#8, 0#8], .response 0x07#8 1#32] := by decide
/-- An interval that ends before it begins. -/
theorem test_setrng_empty : emitted (.setrng 3#16 2#16 0xFF0000#24) one =
    some [.flush 15#8 [0#8, 0#8, 0#8], .response 0x06#8 0#32] := by decide
theorem test_setall : bytesAfter (.setall 0x123456#24) (strip 2#16 255#8 []) =
    some [0x34#8, 0x12#8, 0x56#8, 0x34#8, 0x12#8, 0x56#8] := by decide
/-- CLEAR blanks and its buffer is the empty list of cells, the canonical form. -/
theorem test_clear : (nextOf (exec .clear four)).map State.buf = some [] := by decide
/-- Section 2.6, `SHIFT 1`. -/
theorem test_shift : bytesAfter (.shift 1) four =
    some [0#8, 0#8, 0#8, 0x02#8, 0x01#8, 0x03#8, 0x05#8, 0x04#8, 0x06#8, 0x08#8, 0x07#8, 0x09#8] := by decide
/-- Section 2.6, `SHIFT −3`. -/
theorem test_shift_negative : bytesAfter (.shift (-3)) four =
    some [0x0b#8, 0x0a#8, 0x0c#8, 0#8, 0#8, 0#8, 0#8, 0#8, 0#8, 0#8, 0#8, 0#8] := by decide
/-- Section 2.6, `ROTATE −5`, the same as `ROTATE −1`. -/
theorem test_rotate : bytesAfter (.rotate (-5)) four =
    some [0x05#8, 0x04#8, 0x06#8, 0x08#8, 0x07#8, 0x09#8, 0x0b#8, 0x0a#8, 0x0c#8, 0x02#8, 0x01#8, 0x03#8] := by
  decide
/-- Section 2.6, `ROTATE −32768`: a multiple of four. -/
theorem test_rotate_noop : emitted (.rotate (-32768)) four = some [.response 0x08#8 0#32] := by decide
/-- Section 2.7, vector G4: the clamp bound is n, the end LED is dropped. -/
theorem test_grad : emitted (.grad 1#16 9#16 0#12 180#12) (strip 3#16 255#8 []) =
    some [.flush 15#8 [0x01#8, 0xfe#8, 0x01#8, 0xbe#8, 0xfe#8, 0x01#8, 0xfe#8, 0x7f#8, 0x01#8], .response 0x07#8 3#32] := by
  decide
/-- Section 2.7, vector G1: a gradient of one LED gets the hue 130, not 10. -/
theorem test_grad_one : bytesAfter (.grad 1#16 1#16 10#12 40#12) (strip 2#16 255#8 []) =
    some [0xfe#8, 0x01#8, 0x2a#8, 0#8, 0#8, 0#8] := by decide
theorem test_pack : emitted (.pack 0x12#8 0x34#8 0x56#8) State.reset = some [.response 0x00#8 0x00123456#32] := by decide
/-- Section 2.2, BRIGHT 100. -/
theorem test_scale : emitted (.scale 0xC86432#24) (strip 1#16 100#8 []) = some [.response 0x00#8 0x00274E14#32] := by
  decide
/-- Section 2.3, the worked chain. -/
theorem test_hsl2rgb : emitted (.hsl2rgb 200#12 50#8 25#8) State.reset = some [.response 0x00#8 0x00204A60#32] := by
  decide
/-- Section 2.3: the largest fields clamp to 99. -/
theorem test_hsl2rgb_clamp : emitted (.hsl2rgb 90#12 255#8 255#8) State.reset = some [.response 0x00#8 0x00FCFFFA#32] := by
  decide
theorem test_encrng : emitted (.encrng 65535#16 255#8) State.reset = some [.response 0x00#8 0xFFFE02FF#32] := by
  decide
theorem test_encrng_badarg : emitted (.encrng 0#16 4#8) State.reset = some [.response 0x0A#8 0#32] := by decide
/-- R24: register 4 is 3 × LEDCOUNT. -/
theorem test_rdcfg : emitted (.rdcfg 4#8) four = some [.response 0x00#8 12#32] := by decide
theorem test_rdcfg_range : emitted (.rdcfg 6#8) four = some [.response 0x09#8 0#32] := by decide
theorem test_rdled : emitted (.rdled 4#16) four = some [.response 0x00#8 0x000b0a0c#32] := by decide
theorem test_rdled_range : emitted (.rdled 5#16) four = some [.response 0x09#8 0#32] := by decide
theorem test_rdbuf : emitted (.rdbuf 11#24) four = some [.response 0x00#8 0x0c#32] := by decide
theorem test_rdbuf_range : emitted (.rdbuf 12#24) four = some [.response 0x09#8 0#32] := by decide

/-- A word placed by the host's interface is the one the next step runs. -/
theorem test_withFetchWord : (nextOf (step (State.reset.withFetchWord 64 0x01000000000F0005))).map (fun t => (t.inited, t.ledCount)) =
    some (true, 5#16) := by decide
/-- R261: reset of a live strip. -/
theorem test_reset : nextOf (step (offered .reset four)) = some { State.reset with trace := [.resetMark] } := by
  decide

/-! ## Witnesses: for each statement with hypotheses, a concrete state and operands that meet them, clause by clause at the
edges of its ranges -/

/-- EncodedCommandDecodesToItself: the two ends of OFF, and a command whose fields need no check. -/
theorem witness_EncodedCommandDecodesToItself :
    (Instr.shift 32767).wellFormed = true ∧ (Instr.rotate (-32768)).wellFormed = true ∧
      (Instr.grad 65535#16 0#16 4095#12 0#12).wellFormed = true := by decide

/-- DecodedWordIsItsEncoding: a word that decodes. -/
theorem witness_DecodedWordIsItsEncoding : decode 0x13000000FFFF00FF#64 = .ok (.encrng 65535#16 255#8) := by decide

/-- OpcodeMapIsTheMatchMaskTest: a row, a word on each side of its test. -/
theorem witness_OpcodeMapIsTheMatchMaskTest :
    0x0600000000000000#64 &&& 0xFFFFFFFFFFFFFFFF#64 = 0x0600000000000000#64 ∧
      decode 0x0600000000000000#64 = .ok .clear ∧
      0x0600000000000001#64 &&& 0xFFFFFFFFFFFFFFFF#64 ≠ 0x0600000000000000#64 := by decide

/-- ReservedOpcodeIsIgnored: the ends of the three reserved runs. -/
theorem witness_ReservedOpcodeIsIgnored :
    (offered (.command 0x0A00000000000000#64) four).pending = .command 0x0A00000000000000#64 :: [] ∧
      [0x0A00000000000000#64, 0x0F00000000000000#64, 0x1400000000000000#64, 0x1FFFFFFFFFFFFFFF#64,
          0x2300000000000000#64, 0xFFFFFFFFFFFFFFFF#64].all (fun w =>
        let op := (BitVec.extractLsb' 56 8 w).toNat
        decide ((0x0A ≤ op ∧ op ≤ 0x0F) ∨ (0x14 ≤ op ∧ op ≤ 0x1F) ∨ 0x23 ≤ op)) = true := by decide

/-- ReservedBitsAreIgnored: for each format, the opcode with its lowest and with its highest reserved bit; and the three formats
without reserved bits. -/
theorem witness_ReservedBitsAreIgnored :
    (offered (.command 0x0000000000000001#64) four).pending = .command 0x0000000000000001#64 :: [] ∧
    [(0x00#8, 0x00FFFFFFFFFFFFFF#64, 0x0000000000000001#64), (0x06#8, 0x00FFFFFFFFFFFFFF#64, 0x0680000000000000#64),
        (0x01#8, 0x00FFFFFFFF000000#64, 0x0100000001000000#64), (0x05#8, 0x00FFFFFFFF000000#64, 0x0580000000000000#64),
        (0x10#8, 0x00FFFFFFFF000000#64, 0x1000000001000000#64), (0x11#8, 0x00FFFFFFFF000000#64, 0x1180000000000000#64),
        (0x22#8, 0x00FFFFFFFF000000#64, 0x2200000001000000#64), (0x02#8, 0x00FFFFFFFFFFFF00#64, 0x0200000000000100#64),
        (0x20#8, 0x00FFFFFFFFFFFF00#64, 0x2080000000000000#64), (0x07#8, 0x00FFFFFFFFFF0000#64, 0x0700000000010000#64),
        (0x08#8, 0x00FFFFFFFFFF0000#64, 0x0880000000000000#64), (0x21#8, 0x00FFFFFFFFFF0000#64, 0x2100000000010000#64),
        (0x12#8, 0x00FFFFFFF0000000#64, 0x1200000010000000#64), (0x13#8, 0x00FFFFFF0000FF00#64, 0x1300000000000100#64),
        (0x13#8, 0x00FFFFFF0000FF00#64, 0x1300000100000000#64)].all (fun x =>
      decide (BitVec.extractLsb' 56 8 x.2.2 = x.1 ∧ x.2.2 &&& x.2.1 ≠ 0#64)) = true ∧
    BitVec.extractLsb' 56 8 0x0300000000000000#64 = 0x03#8 ∧ BitVec.extractLsb' 56 8 0x04FFFFFFFFFFFFFF#64 = 0x04#8 ∧
    BitVec.extractLsb' 56 8 0x0900000000000000#64 = 0x09#8 := by decide

/-- SelectorDecodesByCases: both ends of the plain indices, the first packed range, the last one, and malformed selectors next to
them. -/
theorem witness_SelectorDecodesByCases :
    (0#32).toNat ≤ 16 ∧ (16#32).toNat ≤ 16 ∧ (16 < (0x200#32).toNat ∧ (0x200#32).toNat / 256 % 256 = 2) ∧
      (16 < (0xFFFF02FF#32).toNat ∧ (0xFFFF02FF#32).toNat / 256 % 256 = 2) ∧
      (16 < (17#32).toNat ∧ (17#32).toNat / 256 % 256 ≠ 2) ∧ (16 < (0x300#32).toNat ∧ (0x300#32).toNat / 256 % 256 ≠ 2) := by
  decide

/-- EncodedRangeDecodesToItsInterval: the ends of FROM. -/
theorem witness_EncodedRangeDecodesToItsInterval : 1 ≤ (1#16).toNat ∧ 1 ≤ (65535#16).toNat := by decide

/-- PseudoInstructionsRewriteToOneCommand: the ends of K, the values next to them, and FROM = 1. -/
theorem witness_PseudoInstructionsRewriteToOneCommand :
    ((1 : Int) ≤ 1 ∧ (1 : Int) ≤ 16) ∧ ((1 : Int) ≤ 16 ∧ (16 : Int) ≤ 16) ∧ ((0 : Int) < 1 ∨ 16 < (0 : Int)) ∧
      ((17 : Int) < 1 ∨ 16 < (17 : Int)) ∧ 1 ≤ (1#16).toNat := by decide

/-- StepRunsTheDecodedCommand: a presented word that decodes. -/
theorem witness_StepRunsTheDecodedCommand :
    (offered (.command 0x0700000000000001#64) four).pending = .command 0x0700000000000001#64 :: [] ∧
      decode 0x0700000000000001#64 = .ok (.shift 1) := by decide

/-- IdleEngineWaits: nothing presented. -/
theorem witness_IdleEngineWaits : four.pending = [] := rfl

/-- ResetRestoresTheResetState: reset presented to a live strip. -/
theorem witness_ResetRestoresTheResetState : (offered .reset four).pending = .reset :: [] := rfl

/-- ResetCutsACommandShort: a rotation cut before and after its flush. -/
theorem witness_ResetCutsACommandShort :
    (offered (.cutCommand 0x0800000000000001#64 false) four).pending = .cutCommand 0x0800000000000001#64 false :: [] ∧
      (offered (.cutCommand 0x0800000000000001#64 true) four).pending = .cutCommand 0x0800000000000001#64 true :: [] :=
  ⟨rfl, rfl⟩

/-- InvariantHoldsAfterReset: the smallest and the largest MAXLEDS. -/
theorem witness_InvariantHoldsAfterReset :
    Params.wf { maxLeds := 1#16, brightRst := 0#8, flushOnEmpty := false } ∧
      Params.wf { maxLeds := 65535#16, brightRst := 255#8, flushOnEmpty := true } := by decide

/-- EveryStepKeepsTheInvariant: a live strip takes a step. -/
theorem witness_EveryStepKeepsTheInvariant :
    four.Inv ∧ (offered (.command 0x0600000000000000#64) four).Inv ∧ step four = .next four ∧
      ∃ t, step (offered (.command 0x0600000000000000#64) four) = .next t :=
  ⟨four_inv, ⟨four_inv.1, four_inv.2, four_inv.3, four_inv.4, four_inv.5, four_inv.6⟩, rfl, ⟨_, rfl⟩⟩

/-- EveryWordGetsOneResponse: a word presented to the state after reset, and one to a live strip. -/
theorem witness_EveryWordGetsOneResponse :
    (offered (.command 0xFF00000000000000#64) State.reset).pending = .command 0xFF00000000000000#64 :: [] ∧
      (offered (.command 0x0600000000000000#64) four).pending = .command 0x0600000000000000#64 :: [] := ⟨rfl, rfl⟩

/-- IgnoredCommandsChangeNothing: a word for each of the six statuses of the class. -/
theorem witness_IgnoredCommandsChangeNothing :
    ∀ x ∈ [(State.reset, 0x0A00000000000000#64, 0x01#8), (State.reset, 0x0000000000000001#64, 0x02#8),
        (State.reset, 0x0600000000000000#64, 0x03#8), (State.reset, 0x0100000000070000#64, 0x04#8),
        (State.reset, 0x2000000000000006#64, 0x09#8), (State.reset, 0x1300000000000004#64, 0x0A#8)],
      (offered (.command x.2.1) x.1).pending = .command x.2.1 :: [] ∧
        (nextOf (step (offered (.command x.2.1) x.1))).map (fun t => t.trace.getLast?) = some (some (.response x.2.2 0#32)) ∧
        x.2.2 ∈ [0x01#8, 0x02#8, 0x03#8, 0x04#8, 0x09#8, 0x0A#8] := by decide

/-- CommandsFlushPerTheTable: a word whose command flushes, one whose command does not, and one that is no command. -/
theorem witness_CommandsFlushPerTheTable :
    (offered (.command 0x0800000000000001#64) four).pending = .command 0x0800000000000001#64 :: [] ∧
      decode 0x0800000000000001#64 = .ok (.rotate 1) ∧ (1 < four.n ∧ (1 : Int).tmod four.n ≠ 0) ∧
      (offered (.command 0x0800000000000004#64) four).pending = .command 0x0800000000000004#64 :: [] ∧
      ¬((4 : Int).tmod four.n ≠ 0) ∧
      (offered (.command 0xFF00000000000000#64) four).pending = .command 0xFF00000000000000#64 :: [] := by decide

/-- EachRegisterHasItsWriters: a command outside each of the three lists of writers, completing. -/
theorem witness_EachRegisterHasItsWriters :
    (∃ t, exec (.scale 1#24) four = .next t) ∧ (Instr.scale 1#24).opcode ≠ .init ∧ (Instr.scale 1#24).opcode ≠ .setbrt ∧
      (Instr.scale 1#24).opcode ∉ [Opcode.init, .setsel, .setrng, .setall, .clear, .grad, .shift, .rotate] :=
  ⟨⟨_, rfl⟩, by decide, by decide, by decide⟩

/-- InitedIsClearedOnlyByReset: a rejected INIT presented to a live strip. -/
theorem witness_InitedIsClearedOnlyByReset :
    (offered (.command 0x0100000000070000#64) four).pending = .command 0x0100000000070000#64 :: [] ∧
      (offered (.command 0x0100000000070000#64) four).inited = true ∧
      ∃ t, step (offered (.command 0x0100000000070000#64) four) = .next t := ⟨rfl, rfl, ⟨_, rfl⟩⟩

/-- OutputsAreNeverRead: a command that flushes and answers. -/
theorem witness_OutputsAreNeverRead : ∃ t, exec (.setall 0xFFFFFF#24) four = .next t := ⟨_, rfl⟩

/-- BufferCommandsNeedInit: the state after reset, each of the nine commands, and each of the other eight. -/
theorem witness_BufferCommandsNeedInit :
    State.reset.inited = false ∧
      (∀ i ∈ [Instr.nop, .init 15#8 5#16, .setbrt 0#8, .pack 1#8 2#8 3#8, .scale 1#24, .hsl2rgb 0#12 99#8 50#8, .encrng 0#16 4#8,
          .rdcfg 6#8],
        i.opcode ∈ [Opcode.nop, .init, .setbrt, .pack, .scale, .hsl2rgb, .encrng, .rdcfg]) ∧
      ∀ i ∈ [Instr.setsel 1#32 1#24, .setrng 1#16 1#16 1#24, .setall 1#24, .clear, .shift 1, .rotate 1, .grad 1#16 1#16 1#12 1#12,
          .rdled 1#16, .rdbuf 0#24],
        i.opcode ∈ [Opcode.setsel, .setrng, .setall, .clear, .shift, .rotate, .grad, .rdled, .rdbuf] := by decide

/-- MemWriteStoresOneByteOrNothing: the first and last byte of the buffer, the address after it, another address. -/
theorem witness_MemWriteStoresOneByteOrNothing :
    four.Inv ∧ 0 < 3 * four.n ∧ 11 < 3 * four.n ∧ 3 * four.n ≤ 12 ∧ 10 ≠ 11 :=
  ⟨four_inv, by decide, by decide, by decide, by decide⟩

/-- WriteLedWritesAWholeLedOrNothing: the first and last LED, the places next to them, an address of another LED. -/
theorem witness_WriteLedWritesAWholeLedOrNothing :
    four.Inv ∧ ((0 : Int) ≤ 0 ∧ (0 : Int) < four.n) ∧ ((0 : Int) ≤ 3 ∧ (3 : Int) < four.n) ∧ ((-1 : Int) < 0 ∨ (four.n : Int) ≤ -1) ∧
      ((4 : Int) < 0 ∨ (four.n : Int) ≤ 4) ∧ 8 / 3 ≠ (3 : Int).toNat :=
  ⟨four_inv, by decide, by decide, by decide, by decide, by decide⟩

/-- EncrngAnswersThePackedRange: FROM on both sides of its check. -/
theorem witness_EncrngAnswersThePackedRange : (0#16).toNat = 0 ∧ 1 ≤ (1#16).toNat := by decide

/-- ScaleIsBoundedSymmetricAndMonotone: two channel values in order. -/
theorem witness_ScaleIsBoundedSymmetricAndMonotone : (127#8).toNat ≤ (128#8).toNat := by decide

/-- HslMaskNeverChangesAValue: the ends of the conditioned ranges. -/
theorem witness_HslMaskNeverChangesAValue : 0 < 360 ∧ 359 < 360 ∧ 0 ≤ 99 ∧ 99 ≤ 99 := by decide

/-- InitCreatesTheStrip: one LED, MAXLEDS LEDs, none, and one more than MAXLEDS. -/
theorem witness_InitCreatesTheStrip :
    (1 ≤ (1#16).toNat ∧ (1#16).toNat ≤ State.reset.params.maxLeds.toNat) ∧
      (1 ≤ (256#16).toNat ∧ (256#16).toNat ≤ State.reset.params.maxLeds.toNat) ∧
      ((0#16).toNat = 0 ∨ State.reset.params.maxLeds.toNat < (0#16).toNat) ∧
      ((257#16).toNat = 0 ∨ State.reset.params.maxLeds.toNat < (257#16).toNat) := by decide

/-- SetselWritesTheSelectedLeds, SetrngWritesTheIntervalsLeds, SetallWritesEveryLed, ClearBlanksTheStrip, GradFillsTheSpan,
RotateIsUndoneByItsNegative: a live strip with the invariant. -/
theorem witness_SetselWritesTheSelectedLeds : four.Inv ∧ four.inited = true := ⟨four_inv, rfl⟩

theorem witness_SetrngWritesTheIntervalsLeds : four.Inv ∧ four.inited = true := ⟨four_inv, rfl⟩

theorem witness_SetallWritesEveryLed : four.Inv ∧ four.inited = true ∧ 0 < four.n ∧ 3 < four.n :=
  ⟨four_inv, rfl, by decide, by decide⟩

theorem witness_ClearBlanksTheStrip : four.Inv ∧ four.inited = true := ⟨four_inv, rfl⟩

/-- PackedAndTwoFieldRangesAgree: the smallest FROM. -/
theorem witness_PackedAndTwoFieldRangesAgree : 1 ≤ (1#16).toNat := by decide

/-- ScaleForetellsTheReadBack: the first and the last LED. -/
theorem witness_ScaleForetellsTheReadBack :
    four.Inv ∧ four.inited = true ∧ (1 ≤ (1#16).toNat ∧ (1#16).toNat ≤ four.n) ∧ (1 ≤ (4#16).toNat ∧ (4#16).toNat ≤ four.n) :=
  ⟨four_inv, rfl, by decide, by decide⟩

/-- BrightnessIsNotRetroactive: one of the four commands, completing. -/
theorem witness_BrightnessIsNotRetroactive :
    (Instr.shift 1).opcode ∈ [Opcode.shift, .rotate, .rdled, .rdbuf] ∧ ∃ t, exec (.shift 1) four = .next t :=
  ⟨by decide, ⟨_, rfl⟩⟩

/-- ShiftDisplacesTheLeds: OFF 0, the offsets next to it, and an LED that comes from inside and one that does not. -/
theorem witness_ShiftDisplacesTheLeds :
    four.Inv ∧ four.inited = true ∧ (0 : Int) = 0 ∧ (1 : Int) ≠ 0 ∧ (-1 : Int) ≠ 0 ∧
      (0 ≤ ((1 : Nat) : Int) - 1 ∧ ((1 : Nat) : Int) - 1 < four.n) ∧ ¬(0 ≤ ((0 : Nat) : Int) - 1 ∧ ((0 : Nat) : Int) - 1 < four.n) :=
  ⟨four_inv, rfl, by decide, by decide, by decide, by decide, by decide⟩

/-- ShiftByTheLengthOrMoreBlanks: the length itself, in both directions. -/
theorem witness_ShiftByTheLengthOrMoreBlanks :
    four.Inv ∧ four.inited = true ∧ (four.n : Int) ≤ |4| ∧ (four.n : Int) ≤ |-4| :=
  ⟨four_inv, rfl, by decide, by decide⟩

/-- ShiftThereAndBackLosesTheEnd: both ends of the two inner ranges, and the offsets next to them. -/
theorem witness_ShiftThereAndBackLosesTheEnd :
    four.Inv ∧ four.inited = true ∧ (1 : Int) ≠ 0 ∧ ((0 : Int) < 1 ∧ (1 : Int) < four.n) ∧ ((0 : Int) < 3 ∧ (3 : Int) < four.n) ∧
      (-(four.n : Int) < -3 ∧ (-3 : Int) < 0) ∧ (-(four.n : Int) < -1 ∧ (-1 : Int) < 0) ∧ (four.n : Int) ≤ |4| ∧
      (four.n : Int) ≤ |-4| :=
  ⟨four_inv, rfl, by decide, by decide, by decide, by decide, by decide, by decide, by decide⟩

/-- RotateMovesTheLedsCircularly: a strip of one LED, an offset that reduces to 0, offsets next to it. -/
theorem witness_RotateMovesTheLedsCircularly :
    (one.Inv ∧ one.inited = true ∧ one.n ≤ 1) ∧
      (four.Inv ∧ four.inited = true ∧ (4 : Int).tmod four.n = 0 ∧ 1 < four.n ∧ (3 : Int).tmod four.n ≠ 0 ∧
        (-5 : Int).tmod four.n ≠ 0) :=
  ⟨⟨one_inv, rfl, by decide⟩, four_inv, rfl, by decide, by decide, by decide, by decide⟩

/-- RotateDependsOnTheOffsetModuloTheLength: the shortest strip. -/
theorem witness_RotateDependsOnTheOffsetModuloTheLength : 0 < one.n := by decide

theorem witness_RotateIsUndoneByItsNegative : four.Inv ∧ four.inited = true := ⟨four_inv, rfl⟩

/-- GradFillsTheSpan: a live strip; for GRAD 2, 3 the two ends of the span 1 to 2, and an address on each side of it. -/
theorem witness_GradFillsTheSpan :
    four.Inv ∧ four.inited = true ∧ (gradSpan four.n 2 3).s0 = 1 ∧ (gradSpan four.n 2 3).e0 = 2 ∧ 2 < four.n ∧
      ¬(((1 : Nat) : Int) ≤ ((2 / 3 : Nat) : Int) ∧ ((2 / 3 : Nat) : Int) ≤ 2) ∧
      ¬(((1 : Nat) : Int) ≤ ((9 / 3 : Nat) : Int) ∧ ((9 / 3 : Nat) : Int) ≤ 2) :=
  ⟨four_inv, rfl, by decide, by decide, by decide, by decide, by decide⟩

/-- GradQuantitiesStayInBounds: the first and last interior LED of GRAD 1, 5 on five LEDs. -/
theorem witness_GradQuantitiesStayInBounds :
    ((1 : Int) ≤ 1 ∧ (1 : Int) ≤ gradSteps (gradSpan (5#16).toNat (1#16).toNat (5#16).toNat) - 2) ∧
      ((1 : Int) ≤ 3 ∧ (3 : Int) ≤ gradSteps (gradSpan (5#16).toNat (1#16).toNat (5#16).toNat) - 2) := by decide

/-- GradOfEqualHuesIsOneColour: the whole strip, its first and last LED. -/
theorem witness_GradOfEqualHuesIsOneColour :
    four.Inv ∧ four.inited = true ∧ 1 ≤ (1#16).toNat ∧ (1#16).toNat ≤ (4#16).toNat ∧
      (0 < four.n ∧ (1#16).toNat ≤ 0 + 1 ∧ 0 + 1 ≤ (4#16).toNat) ∧ (3 < four.n ∧ (1#16).toNat ≤ 3 + 1 ∧ 3 + 1 ≤ (4#16).toNat) :=
  ⟨four_inv, rfl, by decide, by decide, by decide, by decide⟩

/-- RdcfgAnswersTheRegister: the first and last reserved number. -/
theorem witness_RdcfgAnswersTheRegister : 6 ≤ (6#8).toNat ∧ 6 ≤ (255#8).toNat := by decide

/-- RdledAnswersTheStoredTriplet: the indices at and past both ends. -/
theorem witness_RdledAnswersTheStoredTriplet :
    four.inited = true ∧ ((0#16).toNat = 0 ∨ four.n < (0#16).toNat) ∧ ((5#16).toNat = 0 ∨ four.n < (5#16).toNat) ∧
      (1 ≤ (1#16).toNat ∧ (1#16).toNat ≤ four.n) ∧ (1 ≤ (4#16).toNat ∧ (4#16).toNat ≤ four.n) := by decide

/-- RdbufAnswersTheByte: the last address and the one after it. -/
theorem witness_RdbufAnswersTheByte :
    four.inited = true ∧ (0#24).toNat < 3 * four.n ∧ (11#24).toNat < 3 * four.n ∧ 3 * four.n ≤ (12#24).toNat := by decide

end Sys2Proof.Tests
end

section
/-! The state after power-up meets the invariant (spec/10_state.md R26, R28, R29, R34). -/

namespace Sys2Proof

/-- The values R6 recommends are legal: 1 ≤ 256. -/
theorem Params.recommended_wf : Params.recommended.wf := by decide

end Sys2Proof

namespace Sys2Proof.Machine

/-- A state whose tuple is that of an engine before its first INIT, under legal parameters: the clauses about LEDCOUNT
while INITED is 1 do not apply, and an empty BUF has no cell that could be misplaced. -/
theorem State.Inv.of_uninited_of_buf_nil {s : State} (hp : s.params.wf) (hi : s.inited = false)
    (hc : s.ledCount = 0#16) (hpin : s.pin = 0#8) (hb : s.buf = []) : s.Inv where
  params_wf := hp
  count_of_inited := fun h => absurd h (by simp [hi])
  count_of_uninited := fun _ => hc
  pin_of_uninited := fun _ => hpin
  buf_wf := hb ▸ Memory.wf_nil
  buf_inside := by simp [hb]

theorem State.powerOn_inv {p : Params} (hp : p.wf) : (State.powerOn p).Inv :=
  .of_uninited_of_buf_nil hp (powerOn_inited p) (powerOn_ledCount p) (powerOn_pin p) (powerOn_buf p)

/-- Settles O16: power-up under any legal parameters, of which `State.reset` has the recommended ones. -/
theorem invariantHoldsAfterReset : Obligations.InvariantHoldsAfterReset :=
  ⟨fun _ hp => State.powerOn_inv hp, State.powerOn_inv Params.recommended_wf⟩

end Sys2Proof.Machine
end

section
/-! What every action of the host keeps of the state: the invariant, each register outside its writers, INITED once it is
set (spec/10_state.md R24 to R30, spec/70_reset_and_hazards.md R243). -/

namespace Sys2Proof.Machine

/-! ## Steps and presented words -/

/-- With nothing pending, a step leaves the state as it is (log entry 3). -/
theorem step_of_idle {s : State} (h : s.pending = []) : step s = .next s := by
  simp [step, h]

/-- Every word has a next state (R230). -/
theorem runWord_next (w : CmdWord) (s : State) : ∃ t, runWord w s = .next t := by
  obtain ⟨i, -, h⟩ | h | h := runWord_cases w s
  · exact h ▸ exec_next i s
  · exact ⟨_, h⟩
  · exact ⟨_, h⟩

/-- A command that reset cuts short (R262). -/
theorem runEvent_cutCommand {w : CmdWord} {s u : State} (h : runWord w s = .next u) (flushDelivered : Bool) :
    runEvent (.cutCommand w flushDelivered) s = .next (cutShort s u flushDelivered) := by
  simp [runEvent, h]

/-! ## The invariant -/

/-- The invariant speaks of the tuple and the parameters, not of the outputs or the host's coming actions (R22). -/
theorem State.Inv.withPorts {s : State} (h : s.Inv) (trace : List TraceEvent) (pending : List HostEvent) :
    (s.withPorts trace pending).Inv where
  params_wf := h.params_wf
  count_of_inited := h.count_of_inited
  count_of_uninited := h.count_of_uninited
  pin_of_uninited := h.pin_of_uninited
  buf_wf := h.buf_wf
  buf_inside := h.buf_inside

theorem State.Inv.answered {s : State} (h : s.Inv) (status : Byte) (value : BitVec 32) : (s.answered status value).Inv :=
  h.withPorts (s.trace ++ [TraceEvent.response status value]) s.pending

/-- An accepted INIT starts a strip of 1 to MAXLEDS LEDs with an empty list of cells, whatever was there before (R131). -/
theorem State.Inv.initialised {s : State} (h : s.Inv) (pin : Byte) {count : BitVec 16} (h1 : 1 ≤ count.toNat)
    (h2 : count.toNat ≤ s.params.maxLeds.toNat) :
    ({ s with pin := pin, ledCount := count, buf := [], inited := true } : State).Inv where
  params_wf := h.params_wf
  count_of_inited := fun _ => ⟨h1, h2⟩
  count_of_uninited := nofun
  pin_of_uninited := nofun
  buf_wf := Memory.wf_nil
  buf_inside := nofun

/-- The invariant does not read BRIGHT: every value is legal (R27). -/
theorem State.Inv.withBright {s : State} (h : s.Inv) (val : Byte) : ({ s with bright := val } : State).Inv where
  params_wf := h.params_wf
  count_of_inited := h.count_of_inited
  count_of_uninited := h.count_of_uninited
  pin_of_uninited := h.pin_of_uninited
  buf_wf := h.buf_wf
  buf_inside := h.buf_inside

theorem exec_inv {i : Instr} {s t : State} (hs : s.Inv) (h : exec i s = .next t) : t.Inv := by
  obtain ⟨st, v, -, rfl⟩ | ⟨pin, count, -, h1, h2, rfl⟩ | ⟨val, -, rfl⟩ | ⟨-, -, hbuf, st, v, -, hframe, -⟩ := exec_cases h
  · exact hs.answered _ _
  · exact (hs.initialised pin h1 h2).answered _ _
  · exact (hs.withBright val).answered _ _
  · exact hs.of_sameButBuf hframe (hbuf hs.bufOk)

theorem runWord_inv {w : CmdWord} {s t : State} (hs : s.Inv) (h : runWord w s = .next t) : t.Inv := by
  obtain ⟨i, -, hrun⟩ | hrun | hrun := runWord_cases w s <;> rw [hrun] at h
  · exact exec_inv hs h
  · cases h; exact hs.answered _ _
  · cases h; exact hs.answered _ _

/-- Reset needs of the state before it only that its parameters are legal (R261). -/
theorem State.applyReset_inv {s : State} (hp : s.params.wf) : s.applyReset.Inv :=
  .of_uninited_of_buf_nil hp (applyReset_inited s) (applyReset_ledCount s) (applyReset_pin s) (applyReset_buf s)

theorem runEvent_inv {e : HostEvent} {s t : State} (hs : s.Inv) (h : runEvent e s = .next t) : t.Inv := by
  cases e with
  | command w => exact runWord_inv hs h
  | reset =>
    cases h
    exact State.applyReset_inv hs.params_wf
  | cutCommand w flushDelivered =>
    obtain ⟨u, hu⟩ := runWord_next w s
    rw [runEvent_cutCommand hu] at h
    cases h
    exact State.applyReset_inv hs.params_wf

/-- Settles O17: the idle step keeps the whole state, and every action of the host keeps the invariant. -/
theorem everyStepKeepsTheInvariant : Obligations.EveryStepKeepsTheInvariant := by
  intro s t hs h
  cases hp : s.pending with
  | nil =>
    rw [step_of_idle hp] at h
    cases h
    exact hs
  | cons e rest =>
    rw [step_of_pending hp] at h
    exact runEvent_inv (hs.withPorts s.trace rest) h

/-! ## The writers of each register -/

/-- Settles O22: of the four things a command can do, answering writes no register, starting a strip is INIT's, storing
the brightness SETBRT's, and writing LEDs, which the seven drawing commands do, changes BUF alone. -/
theorem eachRegisterHasItsWriters : Obligations.EachRegisterHasItsWriters := by
  intro i s t h
  obtain ⟨st, v, -, rfl⟩ | ⟨pin, count, rfl, -, -, rfl⟩ | ⟨val, rfl, rfl⟩ |
    ⟨hop, -, -, st, v, -, ⟨hparams, hinited, hcount, hbright, hpin, hpending⟩, -⟩ := exec_cases h
  · simp
  · simp [Instr.opcode]
  · simp [Instr.opcode]
  · refine ⟨fun _ => ⟨hinited, hcount, hpin⟩, fun _ => hbright, fun hno => absurd ?_ hno, hparams, hpending⟩
    simp only [List.mem_cons] at hop ⊢
    tauto

/-! ## INITED once it is set -/

theorem exec_keeps_inited {i : Instr} {s t : State} (hs : s.inited = true) (h : exec i s = .next t) : t.inited = true := by
  obtain ⟨st, v, -, rfl⟩ | ⟨pin, count, -, -, -, rfl⟩ | ⟨val, -, rfl⟩ | ⟨-, -, -, st, v, -, ⟨-, hinited, -⟩, -⟩ := exec_cases h
  · exact hs
  · rfl
  · exact hs
  · rw [hinited, hs]

theorem runWord_keeps_inited {w : CmdWord} {s t : State} (hs : s.inited = true) (h : runWord w s = .next t) :
    t.inited = true := by
  obtain ⟨i, -, hrun⟩ | hrun | hrun := runWord_cases w s <;> rw [hrun] at h
  · exact exec_keeps_inited hs h
  · cases h; exact hs
  · cases h; exact hs

/-- Settles O23: a presented word runs a command or is answered, and neither clears INITED. -/
theorem initedIsClearedOnlyByReset : Obligations.InitedIsClearedOnlyByReset := by
  intro s t w rest hp hs h
  rw [step_of_pending hp] at h
  exact runWord_keeps_inited (s := { s with pending := rest }) hs h

end Sys2Proof.Machine
end

section
/-! A command reads none of the ports (spec/10_state.md R22, R31), and the state after power-up (R34). -/

namespace Sys2Proof.Machine

section
variable (s : State) (trace : List TraceEvent) (pending : List HostEvent)

/-- A command that answers from the state it started in, with other ports. -/
theorem State.rePorted_answer (st : Status) (v : BitVec 32) :
    (s.withPorts trace pending).respond st v = s.rePorted (s.respond st v) trace pending :=
  State.rePorted_respond s trace pending rfl st v

/-- A whole-buffer move with its flush and its answer (R172, R174), with other ports. -/
theorem State.rePorted_assignLeds (f : Nat → Led) (st : Status) (v : BitVec 32) :
    ((s.withPorts trace pending).assignLeds f).flush.respond st v =
      s.rePorted ((s.assignLeds f).flush.respond st v) trace pending :=
  State.rePorted_flush_respond s trace pending (State.assignLeds_trace s f) st v

/-- Every command does the same with other ports and appends the same outputs: each meaning is built of operations that
do. -/
theorem exec_withPorts {i : Instr} {t : State} (h : exec i s = .next t) :
    exec i (s.withPorts trace pending) = .next (s.rePorted t trace pending) := by
  have answer := State.rePorted_answer s trace pending
  cases i <;> cases h <;> refine congrArg Host.Outcome.next ?_
  case nop | pack | scale | hsl2rgb => exact answer _ _
  case encrng first last8 => split <;> exact answer _ _
  case rdcfg reg =>
    rw [State.withPorts_cfgRead]
    split <;> exact answer _ _
  case init pin count =>
    rw [State.withPorts_params]
    split
    · exact answer _ _
    · exact State.rePorted_respond s trace pending
        (u := { s with pin := pin, ledCount := count, buf := [], inited := true }) rfl _ _
  case setbrt val => exact State.rePorted_respond s trace pending (u := { s with bright := val }) rfl _ _
  case setsel | setrng => exact s.rePorted_whenInited trace pending (s.rePorted_writeRange trace pending _ _)
  case setall | clear => exact s.rePorted_whenInited trace pending (s.rePorted_writeAll trace pending _)
  case shift off =>
    refine s.rePorted_whenInited trace pending ?_
    split
    · exact answer _ _
    · rw [State.withPorts_shiftedLed]
      exact s.rePorted_assignLeds trace pending _ _ _
  case rotate off =>
    refine s.rePorted_whenInited trace pending ?_
    rw [State.withPorts_n]
    split
    · exact answer _ _
    split
    · exact answer _ _
    · rw [State.withPorts_rotatedLed]
      exact s.rePorted_assignLeds trace pending _ _ _
  case grad start stop hue1 hue2 =>
    refine s.rePorted_whenInited trace pending ?_
    simp only [State.withPorts_n, State.withPorts_writeLeds]
    exact State.rePorted_flush_respond s trace pending (State.writeLeds_trace s _) _ _
  case rdled idx =>
    refine s.rePorted_whenInited trace pending ?_
    rw [State.withPorts_n, State.withPorts_readLed]
    split <;> exact answer _ _
  case rdbuf addr =>
    refine s.rePorted_whenInited trace pending ?_
    rw [State.withPorts_memRead]
    split <;> exact answer _ _

end

/-- Settles O24: `exec_withPorts`, its two port changes written out. -/
theorem outputsAreNeverRead : Obligations.OutputsAreNeverRead :=
  fun _ s _ trace pending h => exec_withPorts s trace pending h

/-- Settles O15: LEDCOUNT is 0, so BUF has no bytes; the rest are the fields of `State.powerOn`. -/
theorem powerOnStateIsTheResetState : Obligations.PowerOnStateIsTheResetState := by
  intro p
  have hbytes : (State.powerOn p).bytes = [] := by simp [State.bytes, State.bufLen, State.n]
  exact ⟨State.powerOn_inited p, State.powerOn_ledCount p, State.powerOn_bright p, State.powerOn_pin p, hbytes,
    State.powerOn_trace p⟩

end Sys2Proof.Machine
end

section
/-! The byte listing of a command word (spec/30_encoding.md R56). -/

namespace Sys2Proof

/-- The listing by position: byte `k` starts `8 * k` bits below the opcode. -/
theorem wordBytes_eq_map (w : CmdWord) : wordBytes w = (List.range 8).map fun k => w.extractLsb' (56 - 8 * k) 8 := rfl

/-- The eight bytes, weighted by their places, are the word's digits in base 256. -/
theorem wordOfBytes_wordBytes (w : CmdWord) : wordOfBytes (wordBytes w) = some w := by
  refine congrArg some (BitVec.eq_of_toNat_eq ?_)
  have hw := w.isLt
  simp only [wordField, toNat_append_add, toNat_slice]
  omega

/-- Settles O7: the eight bytes joined again are the word, and the listing is read by position. -/
theorem wordListsMostSignificantByteFirst : Obligations.WordListsMostSignificantByteFirst := by
  refine fun w => ⟨wordOfBytes_wordBytes w, rfl, fun k hk => ?_⟩
  rw [wordBytes_eq_map, List.getElem?_map, List.getElem?_range hk, Option.map_some]

end Sys2Proof
end

section
/-! The buffer primitives (spec/20_memory.md R44 to R46). -/

namespace Sys2Proof.Machine

/-! ## One byte (R45) -/

theorem State.memWrite_inside {s : State} {a : Nat} (h : a < s.bufLen) (v : Byte) :
    s.memWrite a v = { s with buf := s.buf.put a v } := if_pos h

theorem State.memWrite_outside {s : State} {a : Nat} (h : s.bufLen ≤ a) (v : Byte) : s.memWrite a v = s :=
  if_neg (Nat.not_lt.2 h)

theorem State.memRead_memWrite_self {s : State} (hs : s.buf.wf) {a : Nat} (h : a < s.bufLen) (v : Byte) :
    (s.memWrite a v).memRead a = some v := by
  rw [State.memRead_of_lt (by rwa [State.memWrite_bufLen]), State.memWrite_inside h]
  exact congrArg some (Memory.byteAt_put_self hs a v)

theorem State.memRead_memWrite_of_ne (s : State) {a x : Nat} (h : x ≠ a) (v : Byte) :
    (s.memWrite a v).memRead x = s.memRead x := by
  obtain ha | ha := Nat.lt_or_ge a s.bufLen
  · rw [State.memWrite_inside ha]
    exact State.memRead_congr rfl (Memory.byteAt_put_of_ne h)
  · rw [State.memWrite_outside ha]

/-- The bytes of BUF are as many as its addresses (R29). -/
@[simp] theorem State.length_bytes (s : State) : s.bytes.length = s.bufLen := by
  simp [State.bytes]

/-- Settles O26: read after write to the same and to another address; the length follows LEDCOUNT, which no write
changes. -/
theorem memWriteStoresOneByteOrNothing : Obligations.MemWriteStoresOneByteOrNothing :=
  fun s addr v hs =>
    ⟨fun h => State.memRead_memWrite_self hs.buf_wf h v, fun h => State.memWrite_outside h v,
      fun _ hx => State.memRead_memWrite_of_ne s hx v, by simp only [State.length_bytes, State.memWrite_bufLen]⟩

/-! ## One LED (R46) -/

theorem State.writeLed_sameButBuf (s : State) (i : Int) (color : Color) : s.sameButBuf (s.writeLed i color).1 := by
  simp [State.sameButBuf]

/-- The three bytes of an LED inside the strip after its write, in the order green, red, blue (R41). -/
theorem State.writeLed_holdsLed {s : State} (hs : s.buf.wf) {i : Nat} (h : i < s.n) (color : Color) :
    (s.writeLed i color).1.holdsLed i (scaleColor color s.bright) :=
  (State.holdsLed_iff (by rwa [State.writeLed_n])).2 (State.writeLed_led_self hs h color)

theorem State.memRead_writeLed_of_ne {s : State} (hs : s.buf.wf) {i : Int} {a : Nat} (h : i ≠ ((a / 3 : Nat) : Int))
    (color : Color) : (s.writeLed i color).1.memRead a = s.memRead a :=
  State.memRead_congr (State.writeLed_n s i color) (State.writeLed_byteAt_of_ne hs color h)

/-- Settles O27: inside the strip the integer is an LED number, whose three bytes the write stores and whose neighbours it
leaves; outside it is none. -/
theorem writeLedWritesAWholeLedOrNothing : Obligations.WriteLedWritesAWholeLedOrNothing := by
  intro s i color hs
  refine ⟨fun h0 hn => ?_, fun h => State.writeLed_outside (by omega) color⟩
  obtain ⟨k, rfl⟩ := Int.eq_ofNat_of_zero_le h0
  obtain ⟨hgreen, hred, hblue⟩ := State.writeLed_holdsLed hs.buf_wf (Int.ofNat_lt.1 hn) color
  refine ⟨?_, State.writeLed_sameButBuf s k color, State.writeLed_trace s k color, hgreen, hred, hblue, fun a ha => ?_⟩
  · rw [State.writeLed_count, if_pos ⟨Int.natCast_nonneg k, hn⟩]
  · exact State.memRead_writeLed_of_ne hs.buf_wf (fun h => ha (Int.ofNat.inj h).symm) color

end Sys2Proof.Machine
end

section
/-! The one response of every presented word (spec/10_state.md R52, spec/60_exceptions.md R230, R231, R237). -/

namespace Sys2Proof.Machine

/-- How the ports stand in `t` after one command word run in `s`: the host's coming actions as before, and one response more,
after nothing or after one flush of PIN and the whole of BUF as they stand in `t`. -/
def State.repliesOnce (s t : State) : Prop :=
  ∃ (c : Byte) (v : BitVec 32), t.pending = s.pending ∧ c.toNat ≤ 0x0A ∧
    (t.trace = s.trace ++ [.response c v] ∨ t.trace = s.trace ++ [.flush t.pin t.bytes, .response c v])

/-- The eleven codes are the numbers up to 0x0A (R237). -/
theorem statusCode_le (st : Status) : (statusCode st).toNat ≤ 0x0A := by
  cases st <;> decide

/-- Answering alone, after a change of the tuple or none. -/
theorem State.repliesOnce_answered {s u : State} (hp : u.pending = s.pending) (ht : u.trace = s.trace) {c : Byte}
    (hc : c.toNat ≤ 0x0A) (v : BitVec 32) : s.repliesOnce (u.answered c v) :=
  ⟨c, v, hp, hc, .inl (by rw [State.answered_trace, ht])⟩

/-- Flushing and then answering; the pin that the flush names is still the pin. -/
theorem State.repliesOnce_of_flushedAs {s t : State} {c : Byte} {v : BitVec 32} (h : s.flushedAs t c v)
    (hc : c.toNat ≤ 0x0A) : s.repliesOnce t := by
  obtain ⟨⟨-, -, -, -, hpin, hpending⟩, htrace⟩ := h
  exact ⟨c, v, hpending, hc, .inr (by rw [htrace, hpin])⟩

theorem exec_repliesOnce {i : Instr} {s t : State} (h : exec i s = .next t) : s.repliesOnce t := by
  obtain ⟨st, v, -, rfl⟩ | ⟨pin, count, -, -, -, rfl⟩ | ⟨val, -, rfl⟩ | ⟨-, -, -, st, v, -, hflushed⟩ := exec_cases h
  · exact State.repliesOnce_answered rfl rfl (statusCode_le st) v
  · exact State.repliesOnce_answered rfl rfl (statusCode_le .ok) _
  · exact State.repliesOnce_answered rfl rfl (statusCode_le .ok) _
  · exact State.repliesOnce_of_flushedAs hflushed (statusCode_le st)

theorem runWord_repliesOnce {w : CmdWord} {s t : State} (h : runWord w s = .next t) : s.repliesOnce t := by
  obtain ⟨i, -, hrun⟩ | hrun | hrun := runWord_cases w s <;> rw [hrun] at h
  · exact exec_repliesOnce h
  · cases h; exact State.repliesOnce_answered rfl rfl (statusCode_le .badOp) _
  · cases h; exact State.repliesOnce_answered rfl rfl (statusCode_le .rsvd) _

/-- Settles O18: a presented word has a next state, and whatever it does it replies once. -/
theorem everyWordGetsOneResponse : Obligations.EveryWordGetsOneResponse := by
  intro s w rest hp
  obtain ⟨t, ht⟩ := runWord_next w { s with pending := rest }
  obtain ⟨c, v, hreplies⟩ := runWord_repliesOnce ht
  exact ⟨t, c, v, (step_of_pending hp).trans ht, hreplies⟩

end Sys2Proof.Machine
end

section
/-! Decoder and encoder are inverse (spec/30_encoding.md R61 to R63, R66, R68). -/

namespace Sys2Proof

/-! ## From a command to its word and back -/

/-- The word the encoder writes passes the test of the command's own row (R66). -/
theorem encode_inRow : ∀ i : Instr, encode i &&& opcodeMask i.opcode = opcodeMatch i.opcode
  | .nop => Laws.EncodeInRow.nop
  | .init pin count => Laws.EncodeInRow.init pin count
  | .setbrt val => Laws.EncodeInRow.setbrt val
  | .setsel sel color => Laws.EncodeInRow.setsel sel color
  | .setrng first last color => Laws.EncodeInRow.setrng first last color
  | .setall color => Laws.EncodeInRow.setall color
  | .clear => Laws.EncodeInRow.clear
  | .shift off => Laws.EncodeInRow.shift off
  | .rotate off => Laws.EncodeInRow.rotate off
  | .grad start stop hue1 hue2 => Laws.EncodeInRow.grad start stop hue1 hue2
  | .pack r g b => Laws.EncodeInRow.pack r g b
  | .scale color => Laws.EncodeInRow.scale color
  | .hsl2rgb hue sat lum => Laws.EncodeInRow.hsl2rgb hue sat lum
  | .encrng first last8 => Laws.EncodeInRow.encrng first last8
  | .rdcfg reg => Laws.EncodeInRow.rdcfg reg
  | .rdled idx => Laws.EncodeInRow.rdled idx
  | .rdbuf addr => Laws.EncodeInRow.rdbuf addr

/-- The fields all lie below the opcode, so a field of the encoded word is one of the operand bits; `h` says in
arithmetic which. -/
theorem wordField_encode {i : Instr} {lo len : Nat} {field : BitVec len} (hlo : lo + len ≤ 56)
    (h : (encodeOperands i).toNat / 2 ^ lo % 2 ^ len = field.toNat) : wordField (encode i) lo len = field := by
  have hbelow : wordField (encode i) lo len = (encodeOperands i).extractLsb' lo len :=
    BitVec.extractLsb'_append_eq_of_add_le hlo
  rw [hbelow, BitVec.toNat_eq, toNat_slice, h]

/-- OFF in its range survives the two's complement field of 16 bits (R63). -/
theorem toInt_ofInt_of_offInRange {off : Int} (h : offInRange off = true) : (BitVec.ofInt 16 off).toInt = off := by
  simp only [offInRange, Bool.and_eq_true, decide_eq_true_eq] at h
  exact BitVec.toInt_ofInt_eq_self (by decide) (by omega) (by omega)

/-- The OFF field of format O reads back as OFF. -/
theorem offField_encode {i : Instr} {off : Int} (hi : encodeOperands i = 0#40 ++ BitVec.ofInt 16 off)
    (hoff : offInRange off = true) : (wordField (encode i) 0 16).toInt = off := by
  have hfield : wordField (encode i) 0 16 = BitVec.ofInt 16 off := by
    refine wordField_encode (by decide) ?_
    simp only [hi, toNat_append_add, BitVec.toNat_ofNat]
    omega
  rw [hfield, toInt_ofInt_of_offInRange hoff]

/-- Field extraction undoes the formats: each operand stands in the slice R63 reads it from, and OFF is the one that a
field may not hold. -/
theorem commandOf_encode {i : Instr} (h : i.wellFormed = true) : commandOf i.opcode (encode i) = i := by
  cases i
  case nop | clear => rfl
  case shift | rotate => exact congrArg _ (offField_encode rfl h)
  all_goals
    simp only [Instr.opcode, commandOf]
    congr 1 <;> refine wordField_encode (by decide) ?_
  all_goals
    simp only [encodeOperands, toNat_append_add, BitVec.toNat_ofNat]
    omega

/-- Settles O1: the encoded word passes its row's test, and the row's fields give the command back. -/
theorem encodedCommandDecodesToItself : Obligations.EncodedCommandDecodesToItself :=
  fun i h => decode_ok_iff.2 ⟨i.opcode, encode_inRow i, commandOf_encode h⟩

/-! ## From a word to its command and back -/

/-- What the decoder reads is well formed: a 16-bit two's complement field has no value outside OFF's range (R63). -/
theorem commandOf_wellFormed (o : Opcode) (w : CmdWord) : (commandOf o w).wellFormed = true := by
  have hoff : offInRange (wordField w 0 16).toInt = true := by
    have hlow := BitVec.le_toInt (wordField w 0 16)
    have hhigh := BitVec.toInt_lt (x := wordField w 0 16)
    simp only [offInRange, Bool.and_eq_true, decide_eq_true_eq]
    omega
  cases o
  case shift | rotate => exact hoff
  all_goals rfl

/-- The formats put the fields back where they were read: the operand bits are all the bits the row leaves free. -/
theorem encodeOperands_commandOf {o : Opcode} (ho : o ≠ .encrng) (w : CmdWord) :
    (encodeOperands (commandOf o w)).toNat = w.toNat % 2 ^ rowShift o := by
  cases o
  case encrng => exact absurd rfl ho
  case nop | clear => exact (Nat.mod_one _).symm
  all_goals
    simp only [commandOf, encodeOperands, rowShift, wordField, BitVec.ofInt_toInt, toNat_append_add, toNat_slice,
      BitVec.toNat_ofNat]
    omega

/-- ENCRNG's free bits are two runs, W[31:16] and W[7:0]. -/
theorem encodeOperands_commandOf_encrng (w : CmdWord) :
    (encodeOperands (commandOf .encrng w)).toNat = w.toNat / 2 ^ 16 % 2 ^ 16 * 2 ^ 16 + w.toNat % 2 ^ 8 := by
  simp only [commandOf, encodeOperands, wordField, toNat_append_add, toNat_slice, BitVec.toNat_ofNat]
  omega

/-- In the words of a row the bits the mask fixes are the match value's, and the others are the operands. -/
theorem encode_commandOf {o : Opcode} {w : CmdWord} (h : w &&& opcodeMask o = opcodeMatch o) :
    encode (commandOf o w) = w := by
  rw [BitVec.toNat_eq, encode_toNat, opcode_commandOf, ← opcodeMatch_toNat]
  by_cases ho : o = .encrng
  · subst ho
    obtain ⟨hhigh, hzero⟩ := (and_encrngMask_iff w).1 h
    have hmatch : (opcodeMatch .encrng).toNat = 0x13000000 * 2 ^ 32 := rfl
    rw [encodeOperands_commandOf_encrng, hmatch]
    omega
  · have hmatch : (opcodeMatch o).toNat = 2 ^ rowShift o * (w.toNat / 2 ^ rowShift o) := by
      rw [(row_iff w ho).1 h]
      cases o <;> rfl
    rw [encodeOperands_commandOf ho, hmatch, Nat.div_add_mod]

/-- Settles O2: the decoded command is of a row whose test the word passes, and in that row the word is its encoding. -/
theorem decodedWordIsItsEncoding : Obligations.DecodedWordIsItsEncoding := by
  intro w i h
  obtain ⟨o, hrow, rfl⟩ := decode_ok_iff.1 h
  exact ⟨commandOf_wellFormed o w, encode_commandOf hrow⟩

/-! ## Single words and whole rows -/

/-- The word of a well-formed command decodes to it. -/
theorem decode_of_encode_eq {i : Instr} {w : CmdWord} (hi : i.wellFormed = true) (hw : encode i = w) : decode w = .ok i :=
  hw ▸ encodedCommandDecodesToItself i hi

/-- Settles O6: each of the six words is the encoding of the command the spec gives for it. -/
theorem wordsOfTheSpecDecode : Obligations.WordsOfTheSpecDecode :=
  ⟨decode_of_encode_eq rfl (by decide), decode_of_encode_eq rfl (by decide), decode_of_encode_eq rfl (by decide),
    decode_of_encode_eq rfl (by decide), decode_of_encode_eq rfl (by decide), decode_of_encode_eq rfl (by decide)⟩

/-- The words that decode to a command of a row are those that pass the row's test (R66). -/
theorem exists_decode_opcode_iff {o : Opcode} {w : CmdWord} :
    (∃ i, decode w = .ok i ∧ i.opcode = o) ↔ w &&& opcodeMask o = opcodeMatch o := by
  constructor
  · rintro ⟨i, hdecode, rfl⟩
    obtain ⟨o, hrow, rfl⟩ := decode_ok_iff.1 hdecode
    rwa [opcode_commandOf]
  · exact fun hrow => ⟨commandOf o w, decode_ok_iff.2 ⟨o, hrow, rfl⟩, opcode_commandOf o w⟩

/-- Settles O3: the rows written out are the model's match and mask values. -/
theorem opcodeMapIsTheMatchMaskTest : Obligations.OpcodeMapIsTheMatchMaskTest := by
  intro row hrow w
  obtain ⟨hmatch, hmask⟩ : row.2.1 = opcodeMatch row.1 ∧ row.2.2 = opcodeMask row.1 := by
    clear w
    revert row
    decide
  rw [hmatch, hmask]
  exact exists_decode_opcode_iff

end Sys2Proof
end

section
/-! Reserved bits (spec/30_encoding.md R68, spec/60_exceptions.md R235). -/

namespace Sys2Proof

/-- The bits a row's format reserves: those of its mask below the opcode. -/
def reservedMask (o : Opcode) : CmdWord := opcodeMask o &&& 0x00FFFFFFFFFFFFFF#64

/-- A row's mask is the opcode's eight bits and the reserved bits. -/
theorem opcodeMask_eq (o : Opcode) : opcodeMask o = BitVec.allOnes 64 <<< 56 ||| reservedMask o := by
  cases o <;> rfl

theorem opcodeMatch_and_low (o : Opcode) : opcodeMatch o &&& 0x00FFFFFFFFFFFFFF#64 = 0#64 := by
  cases o <;> rfl

/-- The opcode's half of a row's test. -/
theorem and_opcodeBits_iff {w : CmdWord} {o : Opcode} :
    w &&& (BitVec.allOnes 64 <<< 56) = opcodeMatch o ↔ wordField w 56 8 = opcodeByte o := by
  have hw := w.isLt
  rw [and_highMask_iff w _ _ 56 rfl (by rw [opcodeMatch_toNat, Nat.mul_mod_left]), opcodeMatch_toNat,
    Nat.mul_div_cancel _ (Nat.two_pow_pos 56), wordField, BitVec.toNat_eq, toNat_slice]
  omega

/-- The two checks of R61 in one test: a word is in a row when it has the row's opcode and no reserved bit. -/
theorem row_iff_opcode_and_reserved {w : CmdWord} {o : Opcode} :
    w &&& opcodeMask o = opcodeMatch o ↔ wordField w 56 8 = opcodeByte o ∧ w &&& reservedMask o = 0#64 := by
  constructor
  · intro h
    refine ⟨opcode_of_row h, ?_⟩
    rw [reservedMask, ← BitVec.and_assoc, h, opcodeMatch_and_low]
  · rintro ⟨hop, hreserved⟩
    rw [opcodeMask_eq, BitVec.and_or_distrib_left, hreserved, BitVec.or_zero]
    exact and_opcodeBits_iff.2 hop

/-- A word with a row's opcode and a reserved bit set (R68). -/
theorem decode_of_reserved_ne_zero {w : CmdWord} {o : Opcode} (hop : wordField w 56 8 = opcodeByte o)
    (h : w &&& reservedMask o ≠ 0#64) : decode w = .error .reservedBits :=
  decode_reservedBits_iff.2
    ⟨o, by rw [hop, opcodeOfByte_opcodeByte], fun hrow => h (row_iff_opcode_and_reserved.1 hrow).2⟩

/-- A word whose row reserves no bits is a command, whatever its other 56 bits are. -/
theorem decode_of_reservedMask_eq_zero {w : CmdWord} {o : Opcode} (hop : wordField w 56 8 = opcodeByte o)
    (h : reservedMask o = 0#64) : decode w = .ok (commandOf o w) :=
  decode_ok_iff.2 ⟨o, row_iff_opcode_and_reserved.2 ⟨hop, by rw [h, BitVec.and_zero]⟩, rfl⟩

/-- Settles O5: the fourteen rows written out are the opcodes with their reserved bits, and three opcodes have none. -/
theorem reservedBitsAreIgnored : Obligations.ReservedBitsAreIgnored := by
  refine ⟨fun row hrow s w rest hp hop hset => ?_, fun w hop => ?_⟩
  · obtain ⟨o, -, rfl⟩ : ∃ o ∈ ([.nop, .clear, .init, .setall, .pack, .scale, .rdbuf, .setbrt, .rdcfg, .shift, .rotate,
        .rdled, .hsl2rgb, .encrng] : List Opcode), (opcodeByte o, reservedMask o) = row := List.mem_map.1 hrow
    rw [Machine.step_of_pending hp]
    exact Machine.runWord_of_reservedBits (decode_of_reserved_ne_zero hop hset) _
  · obtain hop | hop | hop := hop
    · exact ⟨_, decode_of_reservedMask_eq_zero (o := .setsel) hop rfl⟩
    · exact ⟨_, decode_of_reservedMask_eq_zero (o := .setrng) hop rfl⟩
    · exact ⟨_, decode_of_reservedMask_eq_zero (o := .grad) hop rfl⟩

end Sys2Proof
end

section
/-! Packed selectors and the pseudo-instructions that use them (spec/30_encoding.md R72, R75 to R78). -/

namespace Sys2Proof.Machine

/-! ## DecodeSel and EncodeRange -/

/-- A plain 1-based index (R76). -/
theorem decodeSel_plain {sel : BitVec 32} (h : sel.toNat ≤ 16) :
    decodeSel sel = { kind := .plain, f0 := (sel.toNat : Int) - 1, t0 := (sel.toNat : Int) - 1 } :=
  if_pos (by omega)

/-- The marker byte, tested on the selector as a number. -/
theorem selMarker_eq_iff (sel : BitVec 32) : sel.extractLsb' 8 8 = 0x02#8 ↔ sel.toNat / 256 % 256 = 2 := by
  rw [BitVec.toNat_eq, selMarker_toNat]
  rfl

/-- Above the plain indices the marker byte decides (R76). -/
theorem decodeSel_of_lt {sel : BitVec 32} (h : 16 < sel.toNat) :
    decodeSel sel =
      if sel.toNat / 256 % 256 = 2 then
        { kind := .range, f0 := ((sel.toNat / 65536 : Nat) : Int), t0 := ((sel.toNat % 256 : Nat) : Int) - 1 }
      else { kind := .malformed, f0 := 0, t0 := -1 } := by
  have hplain : ¬((sel.toNat : Int) - 1 ≤ 15) := by omega
  simp only [decodeSel, if_neg hplain, selMarker_eq_iff, selFirst_toNat, selLast_toNat]

/-- A packed LedRange (R75, R76). -/
theorem decodeSel_range {sel : BitVec 32} (h : 16 < sel.toNat) (hm : sel.toNat / 256 % 256 = 2) :
    decodeSel sel =
      { kind := .range, f0 := ((sel.toNat / 65536 : Nat) : Int), t0 := ((sel.toNat % 256 : Nat) : Int) - 1 } :=
  (decodeSel_of_lt h).trans (if_pos hm)

/-- Settles O8: the three branches of DecodeSel, the fields read as numbers. -/
theorem selectorDecodesByCases : Obligations.SelectorDecodesByCases :=
  fun _ => ⟨decodeSel_plain, decodeSel_range, fun h hm => (decodeSel_of_lt h).trans (if_neg hm)⟩

/-- Settles O9: the marker puts the encoded value above the plain indices, and its three parts do not overlap. -/
theorem encodedRangeDecodesToItsInterval : Obligations.EncodedRangeDecodesToItsInterval := by
  intro first last8 h
  have hlast := last8.isLt
  have hvalue := encodeRange_toNat h last8
  have hfirst : (encodeRange first last8).toNat / 65536 = first.toNat - 1 := by omega
  have hlow : (encodeRange first last8).toNat % 256 = last8.toNat := by omega
  refine ⟨hvalue, ?_⟩
  rw [decodeSel_range (by omega) (by omega), hfirst, hlow, Nat.cast_sub h]
  rfl

/-! ## SETIDX and SETSELR -/

/-- SETIDX is SETSEL under a condition on its index (R72). -/
theorem assemble_setidx (k color : Int) :
    assemble .setidx [k, color] = if 1 ≤ k ∧ k ≤ 16 then assemble (.op .setsel) [k, color] else none := rfl

/-- Every value of a field can be written as its operand (R64). -/
theorem asmField_toNat {width : Nat} (x : BitVec width) : asmField width (x.toNat : Int) = some x := by
  have hx : (x.toNat : Int) < 2 ^ width := by exact_mod_cast x.isLt
  rw [asmField, if_pos ⟨Int.natCast_nonneg _, hx⟩, BitVec.ofInt_natCast, BitVec.ofNat_toNat, BitVec.setWidth_eq]

theorem assemble_setselr {first : BitVec 16} (h : 1 ≤ first.toNat) (last8 : BitVec 8) (color : Color) :
    assemble .setselr [(first.toNat : Int), (last8.toNat : Int), (color.toNat : Int)] =
      some (.setsel (encodeRange first last8) color) := by
  have hfirst : (1 : Int) ≤ (first.toNat : Int) := by exact_mod_cast h
  simp only [assemble, if_pos hfirst, asmField_toNat]
  rfl

/-- Settles O10: SETIDX tests its index and is then SETSEL; SETSELR's operands fit their fields. -/
theorem pseudoInstructionsRewriteToOneCommand : Obligations.PseudoInstructionsRewriteToOneCommand := by
  refine ⟨fun k color h1 h16 => ?_, fun k color h => ?_, fun first last8 color h => assemble_setselr h last8 color⟩
  · rw [assemble_setidx, if_pos ⟨h1, h16⟩]
  · rw [assemble_setidx, if_neg (by omega)]

end Sys2Proof.Machine
end

section
/-! A step runs the command its word decodes to (spec/30_encoding.md R61, spec/60_exceptions.md R233). -/

namespace Sys2Proof.Machine

/-- A command word's number is its own numbering in the table (log entry 10). -/
theorem tableWord_toNat (w : CmdWord) : tableWord 64 w.toNat = w := by
  rw [tableWord, Nat.mod_eq_of_lt w.isLt, BitVec.ofNat_toNat, BitVec.setWidth_eq]

theorem step_of_decode {s : State} {w : CmdWord} {rest : List HostEvent} {i : Instr} (hp : s.pending = .command w :: rest)
    (h : decode w = .ok i) : step s = exec i { s with pending := rest } :=
  (step_of_pending hp).trans (runWord_of_ok h _)

/-- `withFetchWord` puts the word before what was pending (log entry 2). -/
theorem State.withFetchWord_pending (s : State) (w : CmdWord) :
    (s.withFetchWord 64 w.toNat).pending = .command w :: s.pending := by
  rw [State.withFetchWord, State.presentTableWord, tableWord_toNat]

/-- Settles O11: the step takes the first pending action, and for a word put before the others leaves those. -/
theorem stepRunsTheDecodedCommand : Obligations.StepRunsTheDecodedCommand :=
  ⟨fun _ _ _ _ hp h => step_of_decode hp h, fun s w _ h => step_of_decode (s.withFetchWord_pending w) h⟩

end Sys2Proof.Machine
end

section
/-! The brightness multiplier, and the commands PACK, SCALE and ENCRNG (spec/40_colorcodec.md R101, R103 to R105, R114). -/

namespace Sys2Proof.Machine

/-! ## PACK (R101) -/

theorem exec_pack (r g b : Byte) (s : State) :
    exec (.pack r g b) s = .next (s.answered 0x00#8 ((colorOf r g b).setWidth 32)) := rfl

/-- Settles O28: VALUE is the assembled Color, zero-extended. -/
theorem packAssemblesTheChannels : Obligations.PackAssemblesTheChannels :=
  fun r g b s => ⟨_, exec_pack r g b s, by rw [value24_toNat, colorOf_toNat]⟩

/-! ## SCALE (R105) -/

theorem exec_scale (color : Color) (s : State) :
    exec (.scale color) s = .next (s.answered 0x00#8 ((ledWord (scaleColor color s.bright)).setWidth 32)) := rfl

/-- The stored triplet as one number, each channel by the formula of R103. -/
theorem ledWord_scaleColor_toNat (color : Color) (b : Byte) :
    (ledWord (scaleColor color b)).toNat =
      (color.toNat / 256 % 256 * b.toNat + 127) / 255 * 65536 + (color.toNat / 65536 * b.toNat + 127) / 255 * 256 +
        (color.toNat % 256 * b.toNat + 127) / 255 := by
  simp only [ledWord_toNat, scaleColor, scaleCh_toNat, greenOf_toNat, redOf_toNat, blueOf_toNat]

/-- Settles O29: VALUE is the triplet of `scaleColor`, zero-extended. -/
theorem scaleAnswersTheStoredTriplet : Obligations.ScaleAnswersTheStoredTriplet :=
  fun color s => ⟨_, exec_scale color s, by rw [value24_toNat, ledWord_scaleColor_toNat]⟩

/-! ## The multiplier (R103, R104) -/

/-- Settles O32: the quotient of v × B + 127 by 255 is within 127 of v × B / 255 in 255ths; twice a product is even, and
an odd multiple of 255 is odd. -/
theorem scaleRoundsToNearestAndNoTieOccurs : Obligations.ScaleRoundsToNearestAndNoTieOccurs := by
  intro v b
  have hq := scaleCh_toNat v b
  generalize v.toNat * b.toNat = product at hq ⊢
  exact ⟨by omega, by omega, fun k => by omega⟩

theorem scaleCh_comm (v b : Byte) : scaleCh v b = scaleCh b v := by
  rw [scaleCh, scaleCh, Nat.mul_comm]

/-- Full brightness is the identity. -/
theorem scaleCh_full (v : Byte) : scaleCh v 255#8 = v := by
  have h255 : (255#8).toNat = 255 := rfl
  rw [BitVec.toNat_eq, scaleCh_toNat, h255]
  omega

/-- Brightness 0 blanks. -/
theorem scaleCh_zero (v : Byte) : scaleCh v 0#8 = 0#8 := by
  have h0 : (0#8).toNat = 0 := rfl
  rw [BitVec.toNat_eq, scaleCh_toNat, h0]
  omega

theorem scaleCh_mono {u v : Byte} (b : Byte) (h : u.toNat ≤ v.toNat) : (scaleCh u b).toNat ≤ (scaleCh v b).toNat := by
  have hproduct : u.toNat * b.toNat ≤ v.toNat * b.toNat := Nat.mul_le_mul_right _ h
  rw [scaleCh_toNat, scaleCh_toNat]
  omega

/-- The channel at any brightness is at most the channel at full brightness. -/
theorem scaleCh_le_right (v b : Byte) : (scaleCh v b).toNat ≤ b.toNat :=
  calc (scaleCh v b).toNat ≤ (scaleCh 255#8 b).toNat := scaleCh_mono b (Nat.le_of_lt_succ v.isLt)
    _ = b.toNat := by rw [scaleCh_comm, scaleCh_full]

theorem scaleCh_le_left (v b : Byte) : (scaleCh v b).toNat ≤ v.toNat :=
  scaleCh_comm v b ▸ scaleCh_le_right b v

/-- Settles O33: each property is a lemma about `scaleCh`; the bounds follow from monotonicity and the identity at 255. -/
theorem scaleIsBoundedSymmetricAndMonotone : Obligations.ScaleIsBoundedSymmetricAndMonotone :=
  fun v b => ⟨scaleCh_full v, scaleCh_zero v, scaleCh_comm v b, le_min (scaleCh_le_left v b) (scaleCh_le_right v b),
    fun _ h => scaleCh_mono b h⟩

/-! ## ENCRNG (R114) -/

theorem exec_encrng_zero (last8 : Byte) (s : State) :
    exec (.encrng 0#16 last8) s = .next (s.answered 0x0A#8 0#32) := rfl

theorem exec_encrng {first : BitVec 16} (h : first ≠ 0#16) (last8 : Byte) (s : State) :
    exec (.encrng first last8) s = .next (s.answered 0x00#8 (encodeRange first last8)) :=
  congrArg Host.Outcome.next (if_neg h)

/-- Settles O31: FROM is 0 as a field exactly when it is 0 as a number. -/
theorem encrngAnswersThePackedRange : Obligations.EncrngAnswersThePackedRange := by
  refine fun first last8 s => ⟨fun h => ?_, fun h => ⟨_, exec_encrng ?_ last8 s, encodeRange_toNat h last8⟩⟩
  · obtain rfl : first = 0#16 := BitVec.eq_of_toNat_eq h
    exact exec_encrng_zero last8 s
  · rintro rfl
    exact absurd h (by decide)

/-! ## SCALE against the read-back (R105, R135, R213) -/

/-- RDLED inside the strip (R213). -/
theorem exec_rdled_inside {s : State} (hs : s.inited = true) {idx : BitVec 16} (h1 : 1 ≤ idx.toNat)
    (hn : idx.toNat ≤ s.n) :
    exec (.rdled idx) s = .next (s.answered 0x00#8 ((s.readLed (idx.toNat - 1)).setWidth 32)) := by
  have hinside : ¬(idx.toNat = 0 ∨ s.n < idx.toNat) := by omega
  simp only [exec, execRdled, State.whenInited_pos hs, if_neg hinside, State.respond_eq_answered, statusCode]

/-- SETRNG k, k inside the strip: LED k − 1 holds the scaled colour, and the strip stays as long and alive as it was. -/
theorem exec_setrng_single {s : State} (hs : s.Inv) (hi : s.inited = true) {k : BitVec 16} (h1 : 1 ≤ k.toNat)
    (hn : k.toNat ≤ s.n) (color : Color) :
    ∃ t, exec (.setrng k k color) s = .next t ∧ t.inited = true ∧ t.n = s.n ∧
      t.led (k.toNat - 1) = scaleColor color s.bright := by
  obtain ⟨written, ⟨⟨-, hinited, hcount, -⟩, -, hleds, -⟩, -⟩ := State.writeRange_spec hs.bufOk
    (sel := { kind := .range, f0 := (k.toNat : Int) - 1, t0 := (k.toNat : Int) - 1 }) nofun color
  have hlen := congrArg BitVec.toNat hcount
  refine ⟨_, exec_setrng hi k k color, hinited.trans hi, hlen, ?_⟩
  have hinside : k.toNat - 1 < s.n := by omega
  have hindex : ((k.toNat - 1 : Nat) : Int) = (k.toNat : Int) - 1 := Nat.cast_sub h1
  exact (State.holdsLed_iff (hinside.trans_eq hlen.symm)).1 (hleds _ hinside hindex.ge hindex.le)

/-- Settles O43: both answers are the word of the triplet that the write stores. -/
theorem scaleForetellsTheReadBack : Obligations.ScaleForetellsTheReadBack := by
  intro k color s hs hi h1 hn
  obtain ⟨t, hwrite, hinited, hlen, hled⟩ := exec_setrng_single hs hi h1 hn color
  refine ⟨t, _, hwrite, exec_scale color s, ?_⟩
  rw [exec_rdled_inside hinited h1 (hn.trans_eq hlen.symm), State.readLed, hled]

end Sys2Proof.Machine
end

section
/-! The HSL-to-RGB converter (spec/40_colorcodec.md R106 to R113, R115, R118, R120). -/

namespace Sys2Proof.Machine

/-! ## The bounds of the converter -/

/-- A value of at most the chroma keeps its channel sum in 0 .. 255 (R118). -/
theorem hslOffset_add_bounds {s l v : Nat} (hs : s ≤ 99) (hl : l ≤ 99) (hv : v ≤ hslChroma s l) :
    0 ≤ (v : Int) + hslOffset (hslChroma s l) l ∧ (v : Int) + hslOffset (hslChroma s l) l ≤ 255 := by
  obtain ⟨hnonneg, -, hsum⟩ := hslOffset_bounds hs hl
  omega

/-- Settles O34: every entry of a row of the LUT is at most the chroma, which bounds its sum with the offset. -/
theorem hslMaskNeverChangesAValue : Obligations.HslMaskNeverChangesAValue := by
  intro h s l hh hs hl c x m
  obtain ⟨hnonneg, hoffset, -⟩ := hslOffset_bounds hs hl
  have hsecond : x ≤ c := hslSecond_le c h
  refine ⟨(hslChroma_bounds hs hl).1, hsecond, hnonneg, hoffset, fun v hv => ?_⟩
  have hchroma : v ≤ c := by
    obtain ⟨hred, hgreen, hblue⟩ := hslLut_le (h1 := hslSector h) hsecond
    simp only [List.mem_cons, List.not_mem_nil, or_false] at hv
    obtain rfl | rfl | rfl := hv
    · exact hred
    · exact hgreen
    · exact hblue
  obtain ⟨hlow, hhigh⟩ := hslOffset_add_bounds hs hl hchroma
  exact ⟨hlow, hhigh, hslChannel_toNat hlow hhigh⟩

/-! ## The eight steps in unbounded integers

The model computes in natural numbers; each lemma says that a step's truncated subtraction, shift or truncating division
is the integer one on the values it is given. -/

theorem hslClamp_cast (v : Nat) : (hslClamp v : Int) = min (v : Int) 99 := Nat.cast_min v 99

/-- R108: the subtraction from 100 is never truncated. -/
theorem hslChroma_cast {l : Nat} (hl : l ≤ 99) (s : Nat) :
    (hslChroma s l : Int) = (100 - |2 * (l : Int) - 100|) * s * 256 / 10000 := by
  have hfold : (2 * (l : Int) - 100).natAbs ≤ 100 := by omega
  rw [hslChroma, Int.natCast_div, Nat.cast_mul, Nat.cast_mul, Nat.cast_sub hfold, Int.natCast_natAbs]
  rfl

/-- R109: the sector's start is never above the hue. -/
theorem hslPosition_cast (h : Nat) : (hslPosition h : Int) = ((h : Int) - 60 * ((h : Int) / 60)) * 256 / 60 := by
  simp only [hslPosition, hslSector]
  omega

/-- R110, G2. -/
theorem hslDistance_cast (h : Nat) :
    (hslDistance h : Int) = |((hslSector h : Int) % 2 * 256 + hslPosition h) - 256| := by
  rw [hslDistance, Int.natCast_natAbs]
  push_cast
  rfl

/-- R110, G2: the distance is at most 256, and the shift is a division. -/
theorem hslSecond_cast (c h : Nat) : (hslSecond c h : Int) = (c : Int) * (256 - hslDistance h) / 256 := by
  rw [hslSecond, Nat.shiftRight_eq_div_pow, Int.natCast_div, Nat.cast_mul, Nat.cast_sub (hslDistance_le h)]
  rfl

/-- The row `h1` of the LUT in integers (R111, G3). -/
def hslLutInt (h1 c x : Int) : Int × Int × Int :=
  if h1 = 0 then (c, x, 0) else if h1 = 1 then (x, c, 0) else if h1 = 2 then (0, c, x)
  else if h1 = 3 then (0, x, c) else if h1 = 4 then (x, 0, c) else (c, 0, x)

theorem hslLut_cast (h1 c x : Nat) :
    hslLutInt h1 c x = (((hslLut h1 c x).1 : Int), ((hslLut h1 c x).2.1 : Int), ((hslLut h1 c x).2.2 : Int)) := by
  unfold hslLutInt hslLut
  norm_cast
  split_ifs <;> rfl

/-- R112, G4: the dividend is never negative, so the truncating division is the floor (R120). -/
theorem hslOffset_cast {s l : Nat} (hs : s ≤ 99) (hl : l ≤ 99) :
    hslOffset (hslChroma s l) l = ((l : Int) * 2 * 256 / 100 - hslChroma s l) / 2 := by
  have hle := (hslChroma_bounds hs hl).2.1
  rw [hslOffset_eq hs hl]
  omega

/-- R112: the mask keeps the sum modulo 256. -/
theorem hslChannel_toNat_emod (v : Nat) (m : Int) : ((hslChannel v m).toNat : Int) = ((v : Int) + m) % 256 := by
  rw [hslChannel, BitVec.toNat_ofInt, Int.toNat_of_nonneg (Int.emod_nonneg _ (by decide))]
  rfl

/-- A Color of three masked channels as an integer. -/
theorem colorOf_hslChannel_toNat (r g b : Nat) (m : Int) :
    ((colorOf (hslChannel r m) (hslChannel g m) (hslChannel b m)).toNat : Int) =
      ((r : Int) + m) % 256 * 65536 + ((g : Int) + m) % 256 * 256 + ((b : Int) + m) % 256 := by
  rw [colorOf_toNat]
  push_cast
  rw [hslChannel_toNat_emod, hslChannel_toNat_emod, hslChannel_toNat_emod]

theorem exec_hsl2rgb (hue : BitVec 12) (sat lum : Byte) (s : State) :
    exec (.hsl2rgb hue sat lum) s =
      .next (s.answered 0x00#8 ((hsl2rgb hue.toNat sat.toNat lum.toNat).setWidth 32)) := rfl

/-- Settles O30: step by step, the integer of the statement is the natural number of the model. -/
theorem hsl2rgbFollowsTheEightSteps : Obligations.Hsl2rgbFollowsTheEightSteps := by
  intro hue sat lum s
  refine ⟨_, exec_hsl2rgb hue sat lum s, ?_⟩
  intro h sc l c h1 h2 t x rgb m
  have hh : h = hslHue hue.toNat := rfl
  have hsc : sc = hslClamp sat.toNat := (hslClamp_cast _).symm
  have hl : l = hslClamp lum.toNat := (hslClamp_cast _).symm
  have hc : c = hslChroma (hslClamp sat.toNat) (hslClamp lum.toNat) := by
    rw [hslChroma_cast (hslClamp_le _), ← hl, ← hsc]
  have hh1 : h1 = hslSector (hslHue hue.toNat) := rfl
  have hh2 : h2 = hslPosition (hslHue hue.toNat) := by rw [hslPosition_cast, ← hh]
  have ht : t = hslDistance (hslHue hue.toNat) := by rw [hslDistance_cast, ← hh1, ← hh2]
  have hx : x = hslSecond (hslChroma (hslClamp sat.toNat) (hslClamp lum.toNat)) (hslHue hue.toNat) := by
    rw [hslSecond_cast, ← hc, ← ht]
  have hrgb : rgb = hslLutInt h1 c x := rfl
  have hm : m = hslOffset (hslChroma (hslClamp sat.toNat) (hslClamp lum.toNat)) (hslClamp lum.toNat) := by
    rw [hslOffset_cast (hslClamp_le _) (hslClamp_le _), ← hl, ← hc]
  rw [value24_toNat, hrgb, hh1, hc, hx, hm, hslLut_cast]
  exact colorOf_hslChannel_toNat _ _ _ _

/-! ## The anchor colours -/

/-- Settles O35: three evaluations of the converter. -/
theorem hslAnchorsHaveTheirDominantChannel : Obligations.HslAnchorsHaveTheirDominantChannel :=
  ⟨by decide, by decide, by decide⟩

end Sys2Proof.Machine
end

section
/-! INIT, SETBRT and the writers of the strip (spec/41_pixelbuffer.md R131 to R138). -/

namespace Sys2Proof.Machine

/-! ## INIT (R131) -/

theorem exec_init {count : BitVec 16} {s : State} (h1 : 1 ≤ count.toNat) (h2 : count.toNat ≤ s.params.maxLeds.toNat)
    (pin : Byte) :
    exec (.init pin count) s =
      .next ({ s with pin := pin, ledCount := count, buf := [], inited := true }.answered 0x00#8 0#32) := by
  have haccepted : ¬(count = 0#16 ∨ s.params.maxLeds.toNat < count.toNat) := by
    rintro (rfl | habove)
    · exact absurd h1 (by decide)
    · exact absurd h2 (Nat.not_le.2 habove)
  exact congrArg Host.Outcome.next (if_neg haccepted)

theorem exec_init_badCount {count : BitVec 16} {s : State}
    (h : count.toNat = 0 ∨ s.params.maxLeds.toNat < count.toNat) (pin : Byte) :
    exec (.init pin count) s = .next (s.answered 0x04#8 0#32) :=
  congrArg Host.Outcome.next (if_pos (h.imp_left BitVec.eq_of_toNat_eq))

/-- With no cell listed, every address of the buffer reads 0x00. -/
theorem State.memRead_of_buf_nil {t : State} (h : t.buf = []) (a : Nat) :
    t.memRead a = if a < 3 * t.n then some 0#8 else none := by
  rw [State.memRead, State.bufLen, h, Memory.byteAt_nil]

/-- Settles O36: an accepted INIT leaves no cell listed and the new LEDCOUNT; the other COUNTs are those it ignores. -/
theorem initCreatesTheStrip : Obligations.InitCreatesTheStrip := by
  refine fun pin count s => ⟨fun h1 h2 => ⟨_, exec_init h1 h2 pin, ?_⟩, fun h => exec_init_badCount h pin⟩
  exact ⟨rfl, rfl, rfl, rfl, rfl, rfl, rfl, State.memRead_of_buf_nil rfl⟩

/-! ## SETBRT (R132) -/

/-- Settles O37: the meaning of SETBRT, the response written out. -/
theorem setbrtStoresTheBrightness : Obligations.SetbrtStoresTheBrightness :=
  fun _ _ => rfl

/-! ## SETSEL and SETRNG (R133 to R135, R138) -/

/-- Settles O38: the range writer on the decoded selector, whose interval is empty when it is malformed. -/
theorem setselWritesTheSelectedLeds : Obligations.SetselWritesTheSelectedLeds := by
  intro sel color s hs hi
  obtain ⟨written, hwritten, -, htrace⟩ := State.writeRange_spec hs.bufOk (decodeSel_malformed (sel := sel)) color
  rw [statusCode_rangeStatus] at htrace
  exact ⟨_, written, exec_setsel hi sel color, hwritten, htrace⟩

/-- The status of SETRNG in its own 1-based operands (R133, R135). -/
theorem statusCode_rangeStatus_oneBased (first last written : Nat) :
    statusCode (rangeStatus .range ((first : Int) - 1) ((last : Int) - 1) written) =
      if last < first then 0x06#8 else if (written : Int) < (last : Int) - first + 1 then 0x07#8 else 0x00#8 := by
  have hempty : (last : Int) - 1 < (first : Int) - 1 ↔ last < first := by omega
  have hlength : (last : Int) - 1 - ((first : Int) - 1) + 1 = (last : Int) - first + 1 := by omega
  rw [statusCode_rangeStatus, if_neg (by decide), hlength]
  simp only [hempty]

/-- Settles O39: the range writer on [FROM − 1, TO − 1], a selection that is never malformed. -/
theorem setrngWritesTheIntervalsLeds : Obligations.SetrngWritesTheIntervalsLeds := by
  intro first last color s hs hi
  obtain ⟨written, hwritten, -, htrace⟩ := State.writeRange_spec hs.bufOk
    (sel := { kind := .range, f0 := (first.toNat : Int) - 1, t0 := (last.toNat : Int) - 1 }) nofun color
  rw [statusCode_rangeStatus_oneBased] at htrace
  exact ⟨_, written, exec_setrng hi first last color, hwritten, htrace⟩

/-- The range writer under the check of R236, in every state: SETSEL and SETRNG are this for their selections. -/
theorem exec_setsel_eq_exec_setrng {sel : BitVec 32} {first last : BitVec 16}
    (h : decodeSel sel = { kind := .range, f0 := (first.toNat : Int) - 1, t0 := (last.toNat : Int) - 1 }) (color : Color)
    (s : State) : exec (.setsel sel color) s = exec (.setrng first last color) s := by
  simp only [exec, execSetsel, execSetrng, h]

/-- Settles O42: the packed range decodes to the interval of the two fields, and the meanings differ in that alone. -/
theorem packedAndTwoFieldRangesAgree : Obligations.PackedAndTwoFieldRangesAgree := by
  intro first last8 color s h
  have hlast : (last8.setWidth 16).toNat = last8.toNat := BitVec.toNat_setWidth_of_le (by decide)
  refine exec_setsel_eq_exec_setrng ?_ color s
  rw [hlast]
  exact (encodedRangeDecodesToItsInterval first last8 h).2

/-! ## SETALL and CLEAR (R136, R137) -/

/-- Settles O40: the full-strip writer. -/
theorem setallWritesEveryLed : Obligations.SetallWritesEveryLed := by
  intro color s hs hi
  obtain ⟨hflushed, -, hleds⟩ := State.writeAll_spec hs.bufOk color
  exact ⟨_, exec_setall hi color, hflushed, hleds⟩

/-- Black is blank at every brightness (R137). -/
theorem scaleColor_black (b : Byte) : scaleColor 0x000000#24 b = Led.blank := by
  have hzero : scaleCh 0#8 b = 0#8 := (scaleCh_comm _ _).trans (scaleCh_zero b)
  exact (Led.mk.injEq ..).mpr ⟨hzero, hzero, hzero⟩

/-- A strip of blank LEDs, byte by byte. -/
theorem State.memRead_of_blank {t : State} (h : ∀ i < t.n, t.holdsLed i Led.blank) (a : Nat) :
    t.memRead a = if a < 3 * t.n then some 0#8 else none := by
  split
  · have hi : a / 3 < t.n := by omega
    have hbyte := State.memRead_led hi (Nat.mod_lt a (by decide : 0 < 3))
    rw [Nat.div_add_mod, (State.holdsLed_iff hi).1 (h _ hi)] at hbyte
    simpa [Led.blank] using hbyte
  · exact State.memRead_of_ge (Nat.not_lt.1 ‹_›)

/-- Settles O41: the full-strip writer with black, which leaves every LED blank. -/
theorem clearBlanksTheStrip : Obligations.ClearBlanksTheStrip := by
  intro s hs hi
  obtain ⟨hflushed, -, hleds⟩ := State.writeAll_spec hs.bufOk 0x000000#24
  have ⟨⟨_, _, hcount, _⟩, _⟩ := hflushed
  have hlen : (s.writeAll 0x000000#24).n = s.n := congrArg BitVec.toNat hcount
  rw [scaleColor_black] at hleds
  refine ⟨_, exec_clear hi, hflushed, fun a => ?_⟩
  rw [State.memRead_of_blank (hlen ▸ hleds), hlen]

end Sys2Proof.Machine
end

section
/-! The moves and the read-backs do not read BRIGHT (spec/41_pixelbuffer.md R140, spec/42_transform.md R170,
spec/70_reset_and_hazards.md R266). -/

namespace Sys2Proof.Machine

/-- `s` with another BRIGHT. -/
def State.withBright (s : State) (b : Byte) : State := { s with bright := b }

section
variable (s : State) (b : Byte)

@[simp] theorem State.withBright_n : (s.withBright b).n = s.n := rfl
@[simp] theorem State.withBright_memRead (a : Nat) : (s.withBright b).memRead a = s.memRead a := rfl
@[simp] theorem State.withBright_readLed (i : Nat) : (s.withBright b).readLed i = s.readLed i := rfl
@[simp] theorem State.withBright_shiftedLed (off : Int) : shiftedLed (s.withBright b) off = shiftedLed s off := rfl
@[simp] theorem State.withBright_rotatedLed (k : Int) : rotatedLed (s.withBright b) k = rotatedLed s k := rfl

theorem State.withBright_respond (st : Status) (v : BitVec 32) :
    (s.withBright b).respond st v = (s.respond st v).withBright b := rfl

/-- A whole-buffer move with its flush and its answer, under another brightness: the sink gets the bytes as stored. -/
theorem State.withBright_assignLeds (f : Nat → Led) (st : Status) (v : BitVec 32) :
    ((s.withBright b).assignLeds f).flush.respond st v = ((s.assignLeds f).flush.respond st v).withBright b := rfl

theorem State.withBright_whenInited {k : State → State} (h : k (s.withBright b) = (k s).withBright b) :
    (s.withBright b).whenInited k = (s.whenInited k).withBright b := by
  cases hi : s.inited with
  | true => rw [State.whenInited_pos hi, State.whenInited_pos (s := s.withBright b) hi, h]
  | false => rw [State.whenInited_neg hi, State.whenInited_neg (s := s.withBright b) hi]; rfl

/-- The four commands whose meanings are built of operations that do not read BRIGHT. -/
theorem exec_withBright {i : Instr} {t : State} (hop : i.opcode ∈ [.shift, .rotate, .rdled, .rdbuf])
    (h : exec i s = .next t) : exec i (s.withBright b) = .next (t.withBright b) := by
  cases i
  case nop | init | setbrt | setsel | setrng | setall | clear | grad | pack | scale | hsl2rgb | encrng | rdcfg =>
    simp [Instr.opcode] at hop
  all_goals
    cases h
    refine congrArg Host.Outcome.next (s.withBright_whenInited b ?_)
  case shift off =>
    rw [State.withBright_shiftedLed]
    split
    · exact s.withBright_respond b _ _
    · exact s.withBright_assignLeds b _ _ _
  case rotate off =>
    rw [State.withBright_n, State.withBright_rotatedLed]
    split
    · exact s.withBright_respond b _ _
    split
    · exact s.withBright_respond b _ _
    · exact s.withBright_assignLeds b _ _ _
  case rdled idx =>
    rw [State.withBright_n, State.withBright_readLed]
    split <;> exact s.withBright_respond b _ _
  case rdbuf addr =>
    rw [State.withBright_memRead]
    split <;> exact s.withBright_respond b _ _

end

/-- Settles O44: `exec_withBright`, the change of BRIGHT written out. -/
theorem brightnessIsNotRetroactive : Obligations.BrightnessIsNotRetroactive :=
  fun _ s _ b hop h => exec_withBright s b hop h

end Sys2Proof.Machine
end

section
/-! Which commands flush (spec/41_pixelbuffer.md R139). -/

namespace Sys2Proof.Machine

/-! ## One reply: a response, with a flush before it or none -/

/-- What a command word adds to the outputs: one flush of PIN and the whole of BUF as they stand in `t`, or none, and then the
response. -/
def State.repliesWith (s t : State) (flushed : Bool) (status : Byte) (value : BitVec 32) : Prop :=
  t.trace = s.trace ++ (if flushed = true then [.flush t.pin t.bytes] else []) ++ [.response status value]

/-- Answering alone, after a change of the tuple or none. -/
theorem State.repliesWith_answered {s u : State} (ht : u.trace = s.trace) (c : Byte) (v : BitVec 32) :
    s.repliesWith (u.answered c v) false c v := by
  simp [State.repliesWith, ht]

/-- Flushing and then answering; the pin that the flush names is still the pin. -/
theorem State.repliesWith_of_flushedAs {s t : State} {c : Byte} {v : BitVec 32} (h : s.flushedAs t c v) :
    s.repliesWith t true c v := by
  obtain ⟨⟨-, -, -, -, hpin, -⟩, htrace⟩ := h
  simp [State.repliesWith, htrace, hpin]

/-! ## The table -/

/-- The table of R139 for a command run on a strip, `value` being its VALUE; `exec_repliesPerTable` ties it to `exec`. -/
def flushesOn (i : Instr) (s : State) (value : BitVec 32) : Prop :=
  match i with
  | .setsel _ _ | .setrng _ _ _ => value ≠ 0#32 ∨ s.params.flushOnEmpty = true
  | .setall _ | .clear | .grad _ _ _ _ => True
  | .shift off => off ≠ 0
  | .rotate off => 1 < s.n ∧ off.tmod s.n ≠ 0
  | .nop | .init _ _ | .setbrt _ | .pack _ _ _ | .scale _ | .hsl2rgb _ _ _ | .encrng _ _ | .rdcfg _ | .rdled _
  | .rdbuf _ => False

/-- The commands that may flush: those that write LEDs. -/
abbrev mayFlush (i : Instr) : Prop :=
  i.opcode ∈ [.setsel, .setrng, .setall, .clear, .shift, .rotate, .grad]

theorem mayFlush_of_flushesOn {i : Instr} {s : State} {v : BitVec 32} (h : flushesOn i s v) : mayFlush i := by
  cases i
  case setsel | setrng | setall | clear | shift | rotate | grad => simp [Instr.opcode]
  all_goals exact h.elim

/-- The command flushes exactly when its row of R139 says so. -/
def repliesPerTable (i : Instr) (s t : State) : Prop :=
  ∃ (flushed : Bool) (c : Byte) (v : BitVec 32), s.repliesWith t flushed c v ∧ (flushed = true ↔ flushesOn i s v)

theorem repliesPerTable_of_answered {i : Instr} {s : State} {c : Byte} {v : BitVec 32} (h : ¬flushesOn i s v) :
    repliesPerTable i s (s.answered c v) :=
  ⟨false, c, v, State.repliesWith_answered rfl c v, iff_of_false nofun h⟩

theorem repliesPerTable_of_flushedAs {i : Instr} {s t : State} {c : Byte} {v : BitVec 32} (ht : s.flushedAs t c v)
    (h : flushesOn i s v) : repliesPerTable i s t :=
  ⟨true, c, v, State.repliesWith_of_flushedAs ht, iff_of_true rfl h⟩

/-! ## The commands that may flush, on a strip -/

/-- At most 65535 LEDs are written, so their number in 32 bits is 0 only when none is. -/
theorem written_ne_zero {s : State} {w : Nat} (hw : w ≤ s.n) (h : 0 < w) : BitVec.ofNat 32 w ≠ 0#32 := by
  have hn : s.n < 2 ^ 16 := s.ledCount.isLt
  rw [ne_eq, BitVec.toNat_eq, BitVec.toNat_ofNat, Nat.mod_eq_of_lt (by omega)]
  exact Nat.ne_of_gt h

/-- The range writer, for a command whose row of the table is that of SETSEL and SETRNG. -/
theorem repliesPerTable_writeRange {i : Instr} {s : State}
    (hrow : ∀ v, flushesOn i s v ↔ v ≠ 0#32 ∨ s.params.flushOnEmpty = true) (sel : Selection) (color : Color) :
    repliesPerTable i s (s.writeRange sel color) := by
  obtain ⟨st, w, -, ⟨hflush, hflushed, -⟩ | ⟨-, hempty, hanswered⟩, hw⟩ := State.writeRange_cases s sel color
  · exact repliesPerTable_of_flushedAs hflushed ((hrow _).2 (hflush.imp_left (written_ne_zero hw)))
  · rw [hanswered]
    refine repliesPerTable_of_answered fun h => ?_
    simp [hrow, hempty] at h

/-- SHIFT by 0 (R172). -/
theorem exec_shift_zero {s : State} (h : s.inited = true) : exec (.shift 0) s = .next (s.answered 0x08#8 0#32) :=
  congrArg Host.Outcome.next ((State.whenInited_pos h _).trans (if_pos rfl))

theorem exec_repliesPerTable_of_mayFlush {i : Instr} {s : State} (hi : s.inited = true) (hop : mayFlush i) :
    ∃ t, exec i s = .next t ∧ repliesPerTable i s t := by
  cases i
  case setsel sel color => exact ⟨_, exec_setsel hi sel color, repliesPerTable_writeRange (fun _ => Iff.rfl) _ color⟩
  case setrng first last color =>
    exact ⟨_, exec_setrng hi first last color, repliesPerTable_writeRange (fun _ => Iff.rfl) _ color⟩
  case setall color =>
    exact ⟨_, exec_setall hi color, repliesPerTable_of_flushedAs (State.writeAll_frame s color).1 trivial⟩
  case clear => exact ⟨_, exec_clear hi, repliesPerTable_of_flushedAs (State.writeAll_frame s _).1 trivial⟩
  case shift off =>
    by_cases hoff : off = 0
    · subst hoff
      exact ⟨_, exec_shift_zero hi, repliesPerTable_of_answered fun hne => hne rfl⟩
    · exact ⟨_, exec_shift hi hoff, repliesPerTable_of_flushedAs (State.assignLeds_spec s _).1 hoff⟩
  case rotate off =>
    by_cases hmoves : 1 < s.n ∧ off.tmod s.n ≠ 0
    · exact ⟨_, exec_rotate hi hmoves.1 hmoves.2, repliesPerTable_of_flushedAs (State.assignLeds_spec s _).1 hmoves⟩
    · have hnoop : s.n ≤ 1 ∨ off.tmod s.n = 0 := by
        rwa [not_and_or, not_lt, not_not] at hmoves
      exact ⟨_, exec_rotate_noop hi hnoop, repliesPerTable_of_answered hmoves⟩
  case grad start stop hue1 hue2 =>
    exact ⟨_, exec_grad hi start stop hue1 hue2, repliesPerTable_of_flushedAs
      (State.flushedAs_of_sameButBuf (State.writeLeds_sameButBuf s _) (State.writeLeds_trace s _) _ _) trivial⟩
  all_goals simp [Instr.opcode] at hop

/-! ## Every command and every word -/

/-- With INITED 0, and from the commands that write no LED, there is an answer and no flush. -/
theorem exec_answers {i : Instr} {s t : State} (hno : ¬(s.inited = true ∧ mayFlush i)) (h : exec i s = .next t) :
    ∃ (c : Byte) (v : BitVec 32), s.repliesWith t false c v := by
  obtain ⟨st, v, -, rfl⟩ | ⟨pin, count, -, -, -, rfl⟩ | ⟨val, -, rfl⟩ | ⟨hop, hi, -⟩ := exec_cases h
  · exact ⟨_, _, State.repliesWith_answered rfl _ v⟩
  · exact ⟨_, _, State.repliesWith_answered rfl _ _⟩
  · exact ⟨_, _, State.repliesWith_answered rfl _ _⟩
  · exact absurd ⟨hi, hop⟩ hno

theorem exec_repliesPerTable (i : Instr) (s : State) :
    ∃ (t : State) (flushed : Bool) (c : Byte) (v : BitVec 32), exec i s = .next t ∧ s.repliesWith t flushed c v ∧
      (flushed = true ↔ s.inited = true ∧ flushesOn i s v) := by
  by_cases hmay : s.inited = true ∧ mayFlush i
  · obtain ⟨hi, hop⟩ := hmay
    obtain ⟨t, ht, flushed, c, v, hreply, htable⟩ := exec_repliesPerTable_of_mayFlush hi hop
    exact ⟨t, flushed, c, v, ht, hreply, htable.trans (and_iff_right hi).symm⟩
  · obtain ⟨t, ht⟩ := exec_next i s
    obtain ⟨c, v, hreply⟩ := exec_answers hmay ht
    exact ⟨t, false, c, v, ht, hreply, iff_of_false nofun fun ⟨hi, hrow⟩ => hmay ⟨hi, mayFlush_of_flushesOn hrow⟩⟩

/-- A word that is no command is answered without a flush (R234, R235). -/
theorem runWord_of_error {w : CmdWord} {e : DecodeError} (h : decode w = .error e) (s : State) :
    ∃ c : Byte, runWord w s = .next (s.answered c 0#32) := by
  cases e with
  | reservedOpcode => exact ⟨_, runWord_of_reservedOpcode h s⟩
  | reservedBits => exact ⟨_, runWord_of_reservedBits h s⟩

theorem runWord_repliesPerTable (w : CmdWord) (s : State) :
    ∃ (t : State) (flushed : Bool) (c : Byte) (v : BitVec 32), runWord w s = .next t ∧ s.repliesWith t flushed c v ∧
      (flushed = true ↔ ∃ i, decode w = .ok i ∧ s.inited = true ∧ flushesOn i s v) := by
  cases hw : decode w with
  | error e =>
    obtain ⟨c, hrun⟩ := runWord_of_error hw s
    exact ⟨_, false, c, _, hrun, State.repliesWith_answered rfl c _, iff_of_false nofun nofun⟩
  | ok i =>
    obtain ⟨t, flushed, c, v, ht, hreply, htable⟩ := exec_repliesPerTable i s
    refine ⟨t, flushed, c, v, (runWord_of_ok hw s).trans ht, hreply, htable.trans ⟨fun h => ⟨i, rfl, h⟩, ?_⟩⟩
    rintro ⟨j, hj, h⟩
    cases hj
    exact h

/-- Settles O21: a presented word is answered as `runWord_repliesPerTable` says, the table written out. -/
theorem commandsFlushPerTheTable : Obligations.CommandsFlushPerTheTable := by
  intro s w rest hp
  obtain ⟨t, flushed, c, v, hrun, hreply, htable⟩ := runWord_repliesPerTable w { s with pending := rest }
  exact ⟨t, flushed, c, v, (step_of_pending hp).trans hrun, hreply, htable⟩

end Sys2Proof.Machine
end

section
/-! SHIFT and ROTATE (spec/42_transform.md R172 to R177). -/

namespace Sys2Proof.Machine

/-- LEDCOUNT is not in BUF. -/
theorem State.n_of_sameButBuf {s t : State} (h : s.sameButBuf t) : t.n = s.n := by
  obtain ⟨-, -, hcount, -⟩ := h
  exact congrArg BitVec.toNat hcount

theorem State.sameButBuf_trans {s t u : State} (h : s.sameButBuf t) (h' : t.sameButBuf u) : s.sameButBuf u := by
  obtain ⟨hparams, hinited, hcount, hbright, hpin, hpending⟩ := h
  obtain ⟨hparams', hinited', hcount', hbright', hpin', hpending'⟩ := h'
  exact ⟨hparams'.trans hparams, hinited'.trans hinited, hcount'.trans hcount, hbright'.trans hbright, hpin'.trans hpin,
    hpending'.trans hpending⟩

theorem State.sameTuple_of_sameButBuf {s t : State} (h : s.sameButBuf t) (hbuf : t.buf = s.buf) : s.sameTuple t := by
  obtain ⟨hparams, hinited, hcount, hbright, hpin, -⟩ := h
  exact ⟨hparams, hinited, hcount, hbright, hpin, hbuf⟩

/-- A LED that is the copy of another holds its bytes (R140, R170: no multiplier between them). -/
theorem State.memRead_of_led_eq {s t : State} {i j k : Nat} (hi : i < t.n) (hj : j < s.n) (hk : k < 3)
    (h : t.led i = s.led j) : t.memRead (3 * i + k) = s.memRead (3 * j + k) := by
  rw [State.memRead_led hi hk, State.memRead_led hj hk, h]

theorem State.memRead_of_led_blank {t : State} {i k : Nat} (hi : i < t.n) (hk : k < 3) (h : t.led i = Led.blank) :
    t.memRead (3 * i + k) = some 0#8 := by
  rw [State.memRead_led hi hk, h]
  simp [Led.blank]

/-! ## SHIFT (R172, R173) -/

/-- SHIFT by an offset other than 0: the one reading of its arm that the statements below go through. -/
theorem exec_shift_leds {s : State} (hi : s.inited = true) {off : Int} (hoff : off ≠ 0) :
    ∃ t, exec (.shift off) s = .next t ∧ s.flushedAs t 0x00#8 0#32 ∧ ∀ i < s.n, t.led i = shiftedLed s off i := by
  obtain ⟨hflushed, -, hleds⟩ := State.assignLeds_spec s (shiftedLed s off)
  exact ⟨_, exec_shift hi hoff, hflushed, hleds⟩

/-- Settles O45: a moved LED is a copy of an old one or blank. -/
theorem shiftDisplacesTheLeds : Obligations.ShiftDisplacesTheLeds := by
  refine fun off s _ hi => ⟨fun hzero => hzero ▸ exec_shift_zero hi, fun hoff => ?_⟩
  obtain ⟨t, ht, hflushed, hleds⟩ := exec_shift_leds hi hoff
  refine ⟨t, ht, hflushed, fun i hin k hk => ?_⟩
  have hit : i < t.n := State.n_of_sameButBuf hflushed.1 ▸ hin
  split
  next hinside =>
    exact State.memRead_of_led_eq hit (by omega) hk ((hleds i hin).trans (shiftedLed_inside hinside))
  next houtside => exact State.memRead_of_led_blank hit hk ((hleds i hin).trans (shiftedLed_outside houtside))

/-- An offset of n or more leaves no old LED inside the strip (R173). -/
theorem shiftedLed_of_length_le_abs {s : State} {off : Int} (h : (s.n : Int) ≤ |off|) {i : Nat} (hi : i < s.n) :
    shiftedLed s off i = Led.blank := by
  have hsides : (s.n : Int) ≤ off ∨ (s.n : Int) ≤ -off := le_abs.1 h
  exact shiftedLed_outside (by omega)

/-- Settles O46: every LED is blank; the offset is not 0 because an initialised strip has an LED. -/
theorem shiftByTheLengthOrMoreBlanks : Obligations.ShiftByTheLengthOrMoreBlanks := by
  intro off s hs hi hlong
  have hpos : 1 ≤ s.n := (hs.count_of_inited hi).1
  have hoff : off ≠ 0 := by
    rintro rfl
    rw [abs_zero] at hlong
    omega
  obtain ⟨t, ht, hflushed, hleds⟩ := exec_shift_leds hi hoff
  have hn : t.n = s.n := State.n_of_sameButBuf hflushed.1
  have hblank : ∀ i < t.n, t.holdsLed i Led.blank := fun i hit =>
    (State.holdsLed_iff hit).2 ((hleds i (hn ▸ hit)).trans (shiftedLed_of_length_le_abs hlong (hn ▸ hit)))
  exact ⟨t, ht, hflushed, fun a ha => (State.memRead_of_blank hblank a).trans (if_pos (hn ▸ ha))⟩

/-! ## SHIFT there and back (R177) -/

/-- The second SHIFT fetches LED `i` from place `i + k`, where the first put it unless that place is outside the strip. -/
theorem shiftedLed_neg_of_shifted {s t : State} {k : Int} (hn : t.n = s.n)
    (hleds : ∀ i < s.n, t.led i = shiftedLed s k i) {i : Nat} (hi : i < s.n) :
    shiftedLed t (-k) i = if 0 ≤ (i : Int) + k ∧ (i : Int) + k < s.n then s.led i else Led.blank := by
  split
  next hstays =>
    have hback : (((i : Int) - -k).toNat : Int) - k = i := by omega
    rw [shiftedLed_inside (by omega), hleds _ (by omega), shiftedLed_inside (by omega), hback, Int.toNat_natCast]
  next hleaves => exact shiftedLed_outside (by omega)

/-- SHIFT by `k` and then by `-k` keeps an LED exactly when its place after the first one is in the strip. -/
theorem exec_shift_there_and_back {s : State} (hi : s.inited = true) {k : Int} (hk : k ≠ 0) :
    ∃ t u, exec (.shift k) s = .next t ∧ exec (.shift (-k)) t = .next u ∧
      ∀ i < s.n, u.led i = if 0 ≤ (i : Int) + k ∧ (i : Int) + k < s.n then s.led i else Led.blank := by
  obtain ⟨t, ht, ⟨hsame, -⟩, hthere⟩ := exec_shift_leds hi hk
  have hn : t.n = s.n := State.n_of_sameButBuf hsame
  obtain ⟨-, hinited, -⟩ := hsame
  obtain ⟨u, hu, -, hback⟩ := exec_shift_leds (hinited.trans hi) (neg_ne_zero.2 hk)
  exact ⟨t, u, ht, hu, fun i hin => (hback i (hn ▸ hin)).trans (shiftedLed_neg_of_shifted hn hthere hin)⟩

/-- Settles O47: which LEDs have a place in the strip after the first SHIFT, for each sign and size of the offset. -/
theorem shiftThereAndBackLosesTheEnd : Obligations.ShiftThereAndBackLosesTheEnd := by
  intro k s _ hi hk
  obtain ⟨t, u, ht, hu, hleds⟩ := exec_shift_there_and_back hi hk
  refine ⟨t, u, ht, hu, fun hpos hlt i hin => ?up, fun hgt hneg i hin => ?down, fun hlong i hin => ?out⟩
  case up => exact (hleds i hin).trans (if_congr (by omega) rfl rfl)
  case down => rw [hleds i hin, ← ite_not]; exact if_congr (by omega) rfl rfl
  case out =>
    have hsides : (s.n : Int) ≤ k ∨ (s.n : Int) ≤ -k := le_abs.1 hlong
    exact (hleds i hin).trans (if_neg (by omega))

/-! ## The place a rotation reads from (R174) -/

/-- `(i − k) mod n`, the place that ROTATE brings to place `i` of `n`. -/
def rotatedIndex (n : Nat) (k : Int) (i : Nat) : Nat := (((i : Int) - k) % n).toNat

theorem rotatedLed_eq_led_rotatedIndex (s : State) (k : Int) (i : Nat) : rotatedLed s k i = s.led (rotatedIndex s.n k i) :=
  rotatedLed_eq s k i

theorem rotatedIndex_cast {n : Nat} (hn : 0 < n) (k : Int) (i : Nat) : (rotatedIndex n k i : Int) = ((i : Int) - k) % n :=
  Int.toNat_of_nonneg (Int.emod_nonneg _ (by omega))

theorem rotatedIndex_lt {n : Nat} (hn : 0 < n) (k : Int) (i : Nat) : rotatedIndex n k i < n := by
  have hmod : ((i : Int) - k) % n < n := Int.emod_lt_of_pos _ (by omega)
  rw [← rotatedIndex_cast hn] at hmod
  exact Int.ofNat_lt.1 hmod

/-- Only the class of the offset modulo n counts (R175). -/
theorem rotatedIndex_congr {n : Nat} {k l : Int} (h : k % n = l % n) (i : Nat) : rotatedIndex n k i = rotatedIndex n l i :=
  congrArg Int.toNat ((Int.emod_sub_cancel_left (i : Int)).2 h)

/-- The truncated and the non-negative remainder are in one class (R175). -/
theorem tmod_emod_eq_emod (off : Int) (n : Nat) : off.tmod n % n = off % n :=
  (Int.emod_eq_emod_iff_emod_sub_eq_zero.2 (Int.emod_eq_zero_of_dvd Int.dvd_self_sub_tmod)).symm

theorem rotatedIndex_tmod (n : Nat) (off : Int) (i : Nat) : rotatedIndex n (off.tmod n) i = rotatedIndex n off i :=
  rotatedIndex_congr (tmod_emod_eq_emod off n) i

/-- Where ROTATE is a no-op, its formula moves no LED either. -/
theorem rotatedIndex_of_noop {n : Nat} {off : Int} (h : n ≤ 1 ∨ off.tmod n = 0) {i : Nat} (hi : i < n) :
    rotatedIndex n off i = i := by
  rcases h with hone | hzero
  · have hlt := rotatedIndex_lt (by omega : 0 < n) off i
    omega
  · rw [← rotatedIndex_tmod, hzero, rotatedIndex, Int.sub_zero, Int.emod_eq_of_lt (by omega) (by omega), Int.toNat_natCast]

/-- `((i + k) mod n − k) mod n = i`: a rotation reads back what its negative read (R176). -/
theorem rotatedIndex_rotatedIndex_neg {n i : Nat} (hi : i < n) (k : Int) :
    rotatedIndex n k (rotatedIndex n (-k) i) = i := by
  have hn : 0 < n := Nat.zero_lt_of_lt hi
  apply Int.ofNat_inj.1
  calc (rotatedIndex n k (rotatedIndex n (-k) i) : Int)
      = (((i : Int) - -k) % n - k) % n := by rw [rotatedIndex_cast hn, rotatedIndex_cast hn]
    _ = (i : Int) % n := by rw [Int.emod_sub_emod, sub_neg_eq_add, add_sub_cancel_right]
    _ = i := Int.emod_eq_of_lt (by omega) (by omega)

/-! ## ROTATE (R174 to R176) -/

theorem rotate_moves_or_noop (n : Nat) (off : Int) : (1 < n ∧ off.tmod n ≠ 0) ∨ (n ≤ 1 ∨ off.tmod n = 0) := by
  omega

/-- Settles O48: ROTATE copies LED `(i − OFF rem n) mod n` to place `i`. -/
theorem rotateMovesTheLedsCircularly : Obligations.RotateMovesTheLedsCircularly := by
  refine fun off s _ hi => ⟨exec_rotate_noop hi, fun hn hoff => ?_⟩
  obtain ⟨hflushed, -, hleds⟩ := State.assignLeds_spec s (rotatedLed s (off.tmod s.n))
  refine ⟨_, exec_rotate hi hn hoff, hflushed, fun i hin k hk => ?_⟩
  exact State.memRead_of_led_eq hin (rotatedIndex_lt (by omega) _ i) hk (hleds i hin)

theorem exec_rotate_uninited {s : State} (h : s.inited = false) (off : Int) :
    exec (.rotate off) s = .next (s.answered 0x03#8 0#32) :=
  congrArg Host.Outcome.next (State.whenInited_neg h _)

/-- Offsets of one class modulo n have the same remainder 0 or not, and read the same places. -/
theorem exec_rotate_congr {s : State} {k l : Int} (h : k % s.n = l % s.n) : exec (.rotate k) s = exec (.rotate l) s := by
  have hzero : k.tmod s.n = 0 ↔ l.tmod s.n = 0 := by
    rw [← Int.dvd_iff_tmod_eq_zero, ← Int.dvd_iff_tmod_eq_zero, Int.dvd_iff_emod_eq_zero, Int.dvd_iff_emod_eq_zero, h]
  cases hi : s.inited with
  | false => rw [exec_rotate_uninited hi, exec_rotate_uninited hi]
  | true =>
    obtain ⟨hn, hk⟩ | hnoop := rotate_moves_or_noop s.n k
    · have hleds : rotatedLed s (k.tmod s.n) = rotatedLed s (l.tmod s.n) := by
        funext i
        rw [rotatedLed_eq_led_rotatedIndex, rotatedLed_eq_led_rotatedIndex, rotatedIndex_tmod, rotatedIndex_tmod,
          rotatedIndex_congr h]
      rw [exec_rotate hi hn hk, exec_rotate hi hn (mt hzero.2 hk), hleds]
    · rw [exec_rotate_noop hi hnoop, exec_rotate_noop hi (hnoop.imp_right hzero.1)]

/-- Settles O49: an offset and its non-negative remainder are in one class. -/
theorem rotateDependsOnTheOffsetModuloTheLength : Obligations.RotateDependsOnTheOffsetModuloTheLength :=
  fun off s _ => exec_rotate_congr (Int.emod_emod off s.n).symm

/-- What ROTATE leaves, moving or not. -/
theorem exec_rotate_leds {s : State} (hs : s.bufOk) (hi : s.inited = true) (off : Int) :
    ∃ t, exec (.rotate off) s = .next t ∧ s.sameButBuf t ∧ t.bufOk ∧ ∀ i < s.n, t.led i = s.led (rotatedIndex s.n off i) := by
  obtain ⟨hn, hoff⟩ | hnoop := rotate_moves_or_noop s.n off
  · obtain ⟨⟨hsame, -⟩, hok, hleds⟩ := State.assignLeds_spec s (rotatedLed s (off.tmod s.n))
    refine ⟨_, exec_rotate hi hn hoff, hsame, hok, fun i hin => ?_⟩
    rw [hleds i hin, rotatedLed_eq_led_rotatedIndex, rotatedIndex_tmod]
  · refine ⟨_, exec_rotate_noop hi hnoop, State.sameButBuf_refl s, hs, fun i hin => ?_⟩
    rw [State.answered_led, rotatedIndex_of_noop hnoop hin]

/-- Settles O50: LED by LED the second rotation fetches what the first one moved away, and equal LEDs are equal buffers. -/
theorem rotateIsUndoneByItsNegative : Obligations.RotateIsUndoneByItsNegative := by
  intro off s hs hi
  obtain ⟨t, ht, hsame, htok, hthere⟩ := exec_rotate_leds hs.bufOk hi off
  have htn : t.n = s.n := State.n_of_sameButBuf hsame
  have ⟨_, hinited, _⟩ := hsame
  obtain ⟨u, hu, hsame', huok, hback⟩ := exec_rotate_leds htok (hinited.trans hi) (-off)
  have hboth : s.sameButBuf u := State.sameButBuf_trans hsame hsame'
  have hleds : ∀ i < s.n, u.led i = s.led i := fun i hin => by
    rw [hback i (htn ▸ hin), htn, hthere _ (rotatedIndex_lt (Nat.zero_lt_of_lt hin) _ _), rotatedIndex_rotatedIndex_neg hin]
  have hbuf : u.buf = s.buf := State.buf_eq_of_leds hs.bufOk huok (State.n_of_sameButBuf hboth) hleds
  exact ⟨t, u, ht, hu, State.sameTuple_of_sameButBuf hboth hbuf⟩

end Sys2Proof.Machine
end

section
/-! GRAD (spec/43_gradient.md R191 to R198). -/

namespace Sys2Proof.Machine

/-! ## The bounds of the gradient's quantities (R192, R193, R197) -/

theorem gradDistance_bounds (hue1 hue2 : Nat) : 0 ≤ gradDistance hue1 hue2 ∧ gradDistance hue1 hue2 ≤ 359 :=
  ⟨Int.emod_nonneg _ (by decide), Int.le_of_lt_add_one (Int.emod_lt_of_pos _ (by decide))⟩

/-- Equal hues are no distance apart (R198). -/
theorem gradDistance_self (hue : Nat) : gradDistance hue hue = 0 := by
  rw [gradDistance, modFloor, add_sub_cancel_left]
  rfl

/-- The dividend of R193 is never negative, so truncation is the floor. -/
theorem gradHueStep_eq (hue1 hue2 : Nat) (steps : Int) :
    gradHueStep hue1 hue2 steps = gradDistance hue1 hue2 * 100 / steps :=
  Int.tdiv_eq_ediv_of_nonneg (Int.mul_nonneg (gradDistance_bounds hue1 hue2).1 (by decide))

theorem gradHueStep_nonneg (hue1 hue2 : Nat) {steps : Int} (h : 0 < steps) : 0 ≤ gradHueStep hue1 hue2 steps := by
  rw [gradHueStep_eq]
  exact Int.ediv_nonneg (Int.mul_nonneg (gradDistance_bounds hue1 hue2).1 (by decide)) h.le

/-- At most `steps` hue steps never pass the hue distance (R197). -/
theorem mul_gradHueStep_le (hue1 hue2 : Nat) {steps i : Int} (h : 0 < steps) (hi : i ≤ steps) :
    i * gradHueStep hue1 hue2 steps ≤ gradDistance hue1 hue2 * 100 := by
  calc i * gradHueStep hue1 hue2 steps
      ≤ steps * gradHueStep hue1 hue2 steps := Int.mul_le_mul_of_nonneg_right hi (gradHueStep_nonneg hue1 hue2 h)
    _ ≤ gradDistance hue1 hue2 * 100 := by rw [gradHueStep_eq]; exact Int.mul_ediv_self_le h.ne'

theorem gradSteps_bounds (n start stop : Nat) :
    1 ≤ gradSteps (gradSpan n start stop) ∧ gradSteps (gradSpan n start stop) ≤ (n : Int) + 1 := by
  obtain ⟨hfirst, hordered, hlast⟩ := gradSpan_bounds n start stop
  rw [gradSteps]
  omega

/-- Settles O52: an interior hue is the start hue and at most `steps` hue steps, which stay within the hue distance. -/
theorem gradQuantitiesStayInBounds : Obligations.GradQuantitiesStayInBounds := by
  intro n start stop hue1 hue2 g steps hd hs
  obtain ⟨hfirst, hordered, hlast⟩ := gradSpan_bounds n.toNat start.toNat stop.toNat
  obtain ⟨hone, hmost⟩ : 1 ≤ steps ∧ steps ≤ (n.toNat : Int) + 1 := gradSteps_bounds n.toNat start.toNat stop.toNat
  obtain ⟨hdist, hdist'⟩ : 0 ≤ hd ∧ hd ≤ 359 := gradDistance_bounds hue1.toNat hue2.toNat
  have hstep : 0 ≤ hs := gradHueStep_nonneg hue1.toNat hue2.toNat hone
  have hwhole : ∀ i ≤ steps, i * hs ≤ hd * 100 := fun i hi => mul_gradHueStep_le hue1.toNat hue2.toNat hone hi
  have hstep' : 1 * hs ≤ hd * 100 := hwhole 1 hone
  refine ⟨hfirst, hordered, hlast, hone, hmost, hdist, hdist', hstep, by omega, fun i hi hi' => ?_⟩
  have hinc : 0 ≤ i * hs := Int.mul_nonneg (by omega) hstep
  have hinc' : i * hs ≤ hd * 100 := hwhole i (by omega)
  omega

/-! ## The hue of an LED (R194) -/

/-- R194 with floor divisions: inside the span no dividend is negative. -/
theorem gradHueAt_eq {g : GradSpan} (hg : g.s0 ≤ g.e0) (hue1 hue2 : Nat) {i : Int} (hi : g.s0 ≤ i) :
    gradHueAt g hue1 hue2 i =
      if gradSteps g = 1 then (hue1 : Int) + gradDistance hue1 hue2 * 100 / gradSteps g
      else if i = g.s0 then (hue1 : Int)
      else if i = g.e0 then (hue2 : Int)
      else ((hue1 : Int) * 100 + (i - g.s0) * (gradDistance hue1 hue2 * 100 / gradSteps g)) / 100 := by
  have hsteps : 0 < gradSteps g := by rw [gradSteps]; omega
  have hinc : 0 ≤ (i - g.s0) * gradHueStep hue1 hue2 (gradSteps g) :=
    Int.mul_nonneg (by omega) (gradHueStep_nonneg hue1 hue2 hsteps)
  rw [gradHueAt, Int.tdiv_eq_ediv_of_nonneg (by omega), gradHueStep_eq]

/-- A gradient between equal hues has that hue everywhere (R198). -/
theorem gradHueAt_self {g : GradSpan} (hg : g.s0 ≤ g.e0) (hue : Nat) {i : Int} (hi : g.s0 ≤ i) :
    gradHueAt g hue hue i = hue := by
  rw [gradHueAt_eq hg hue hue hi, gradDistance_self]
  simp

/-! ## What GRAD leaves (R191, R196) -/

theorem statusCode_gradStatus (steps : Int) (written : Nat) :
    statusCode (gradStatus steps written) = if (written : Int) = steps then 0x00#8 else 0x07#8 := by
  rw [gradStatus, apply_ite statusCode]
  rfl

/-- GRAD on a strip: the one reading of its arm that the statements below go through. -/
theorem exec_grad_leds {s : State} (hs : s.bufOk) (hi : s.inited = true) (start stop : BitVec 16) (hue1 hue2 : BitVec 12)
    {g : GradSpan} (hg : gradSpan s.n start.toNat stop.toNat = g) :
    ∃ (t : State) (written : Nat), exec (.grad start stop hue1 hue2) s = .next t ∧
      s.flushedAs t (if (written : Int) = gradSteps g then 0x00#8 else 0x07#8) (BitVec.ofNat 32 written) ∧
      (written : Int) = (if g.e0 = s.n then gradSteps g - 1 else gradSteps g) ∧
      (∀ i : Nat, i < s.n → g.s0 ≤ i → (i : Int) ≤ g.e0 →
        t.holdsLed i (scaleColor (gradColor (gradHueAt g hue1.toNat hue2.toNat i)) s.bright)) ∧
      (∀ a : Nat, ¬(g.s0 ≤ ((a / 3 : Nat) : Int) ∧ ((a / 3 : Nat) : Int) ≤ g.e0) → t.memRead a = s.memRead a) := by
  subst hg
  obtain ⟨-, hordered, -⟩ := gradSpan_bounds s.n start.toNat stop.toNat
  refine ⟨_, (s.writeLeds (gradWrites (gradSpan s.n start.toNat stop.toNat) hue1.toNat hue2.toNat)).2,
    exec_grad hi start stop hue1 hue2, ?flushed, ?count, fun i hin hfirst hlast => ?led, fun a houtside => ?frame⟩
  case flushed =>
    rw [← statusCode_gradStatus]
    exact State.flushedAs_of_sameButBuf (State.writeLeds_sameButBuf s _) (State.writeLeds_trace s _) _ _
  case count =>
    rw [State.writeLeds_count]
    exact countP_gradWrites s.n start.toNat stop.toNat hue1.toNat hue2.toNat
  case led =>
    rw [State.holdsLed_iff (by simpa using hin)]
    refine State.writeLeds_led hs hin (exists_gradWrites _ _ hfirst hlast) fun w hw hwi => ?_
    obtain ⟨-, -, hcolor⟩ := mem_gradWrites hordered hw
    rw [hcolor, hwi]
  case frame =>
    refine State.memRead_congr (by simp) (State.writeLeds_byteAt_of_ne hs fun w hw hwa => houtside ?_)
    obtain ⟨hfirst, hlast, -⟩ := mem_gradWrites hordered hw
    exact hwa ▸ ⟨hfirst, hlast⟩

/-- Settles O51: the span and the hues of the model, written as minimum, maximum and floor divisions. -/
theorem gradFillsTheSpan : Obligations.GradFillsTheSpan := by
  intro start stop hue1 hue2 s hinv hinited lo hi s0 e0 steps hd hs
  obtain ⟨hs0, he0⟩ := gradSpan_eq s.n start.toNat stop.toNat
  have hordered : s0 ≤ e0 := by omega
  obtain ⟨t, written, ht, ⟨hsame, htrace⟩, hwritten, hleds, hframe⟩ :=
    exec_grad_leds hinv.bufOk hinited start stop hue1 hue2 (g := ⟨s0, e0⟩) (congrArg₂ GradSpan.mk hs0 he0)
  refine ⟨t, written, ht, hsame, hwritten, htrace, fun i hin hfirst hlast => ?_, hframe⟩
  have hled := hleds i hin hfirst hlast
  rw [gradHueAt_eq hordered _ _ hfirst] at hled
  exact hled

/-- Settles O53: LEDs START to END inside the strip are in the span, and its one hue is theirs. -/
theorem gradOfEqualHuesIsOneColour : Obligations.GradOfEqualHuesIsOneColour := by
  intro start stop hue s hs hi hone horder
  obtain ⟨hs0, he0⟩ := gradSpan_eq s.n start.toNat stop.toNat
  obtain ⟨-, hordered, -⟩ := gradSpan_bounds s.n start.toNat stop.toNat
  obtain ⟨t, -, ht, -, -, hleds, -⟩ := exec_grad_leds hs.bufOk hi start stop hue hue rfl
  refine ⟨t, ht, fun i hin hfirst hlast => ?_⟩
  have hled := hleds i hin (by omega) (by omega)
  rw [gradHueAt_self hordered _ (by omega)] at hled
  exact hled

end Sys2Proof.Machine
end

section
/-! The system and read-back commands (spec/44_system.md R211 to R214). -/

namespace Sys2Proof.Machine

/-! ## NOP (R211) -/

theorem exec_nop (s : State) : exec .nop s = .next (s.answered 0x00#8 0#32) := rfl

/-- Settles O54: the meaning of NOP, and the all-zero word as NOP's encoding. -/
theorem nopOnlyAnswers : Obligations.NopOnlyAnswers :=
  ⟨exec_nop, decode_of_encode_eq rfl (by decide)⟩

/-! ## RDCFG (R212) -/

theorem exec_rdcfg {s : State} {reg : Byte} {v : BitVec 32} (h : cfgRead s reg = some v) :
    exec (.rdcfg reg) s = .next (s.answered 0x00#8 v) := by
  simp only [exec, execRdcfg, h, State.respond_eq_answered, statusCode]

theorem exec_rdcfg_none {s : State} {reg : Byte} (h : cfgRead s reg = none) :
    exec (.rdcfg reg) s = .next (s.answered 0x09#8 0#32) := by
  simp only [exec, execRdcfg, h, State.ignore_eq_answered, statusCode]

/-- The numbers from 6 on name no register (R24). -/
theorem cfgRead_reserved (s : State) {reg : Byte} (h : 6 ≤ reg.toNat) : cfgRead s reg = none := by
  have hne : ∀ k : Byte, k.toNat < 6 → reg ≠ k := by
    rintro k hk rfl
    exact absurd h (Nat.not_le.2 hk)
  simp [cfgRead, hne]

/-- BUFLEN fits a VALUE: LEDCOUNT has 16 bits. -/
theorem State.bufLen_value_toNat (s : State) : (BitVec.ofNat 32 s.bufLen).toNat = 3 * s.ledCount.toNat := by
  have hcount := s.ledCount.isLt
  rw [BitVec.toNat_ofNat, State.bufLen, State.n]
  omega

/-- Settles O55: each number's register, BUFLEN as a number, and the reserved numbers. -/
theorem rdcfgAnswersTheRegister : Obligations.RdcfgAnswersTheRegister :=
  fun s => ⟨exec_rdcfg rfl, exec_rdcfg rfl, exec_rdcfg rfl, exec_rdcfg rfl, ⟨_, exec_rdcfg rfl, s.bufLen_value_toNat⟩,
    exec_rdcfg rfl, fun _ h => exec_rdcfg_none (cfgRead_reserved s h)⟩

/-! ## RDLED (R213) -/

theorem exec_rdled_outside {s : State} (hs : s.inited = true) {idx : BitVec 16}
    (h : idx.toNat = 0 ∨ s.n < idx.toNat) : exec (.rdled idx) s = .next (s.answered 0x09#8 0#32) := by
  simp only [exec, execRdled, State.whenInited_pos hs, if_pos h, State.ignore_eq_answered, statusCode]

/-- Settles O56: IDX is 1-based, so it names LED IDX − 1, whose three bytes are the digits of the answer. -/
theorem rdledAnswersTheStoredTriplet : Obligations.RdledAnswersTheStoredTriplet := by
  refine fun idx s hs => ⟨exec_rdled_outside hs, fun h1 hn => ?_⟩
  have hinside : idx.toNat - 1 < s.n := Nat.sub_one_lt_of_le h1 hn
  obtain ⟨hgreen, hred, hblue⟩ := (State.holdsLed_iff hinside).2 rfl
  refine ⟨_, _, _, _, exec_rdled_inside hs h1 hn, hgreen, hred, hblue, ?_⟩
  rw [value24_toNat, State.readLed, ledWord_toNat]

/-! ## RDBUF (R214) -/

theorem exec_rdbuf_some {s : State} (hs : s.inited = true) {addr : BitVec 24} {b : Byte}
    (h : s.memRead addr.toNat = some b) : exec (.rdbuf addr) s = .next (s.answered 0x00#8 (b.setWidth 32)) := by
  simp only [exec, execRdbuf, State.whenInited_pos hs, h, State.respond_eq_answered, statusCode]

theorem exec_rdbuf_none {s : State} (hs : s.inited = true) {addr : BitVec 24} (h : s.memRead addr.toNat = none) :
    exec (.rdbuf addr) s = .next (s.answered 0x09#8 0#32) := by
  simp only [exec, execRdbuf, State.whenInited_pos hs, h, State.ignore_eq_answered, statusCode]

/-- Settles O57: what MemRead has at the address decides the answer. -/
theorem rdbufAnswersTheByte : Obligations.RdbufAnswersTheByte := by
  refine fun addr s hs => ⟨fun hinside => ?_, fun houtside => ?_⟩
  · have hbyte := State.memRead_of_lt (s := s) hinside
    exact ⟨_, hbyte, exec_rdbuf_some hs hbyte⟩
  · have hnone := State.memRead_of_ge (s := s) houtside
    exact ⟨hnone, exec_rdbuf_none hs hnone⟩

end Sys2Proof.Machine
end

section
/-! The common checks and the ignored class (spec/30_encoding.md R67, spec/60_exceptions.md R230, R232, R234, R236, R237). -/

namespace Sys2Proof.Machine

/-! ## Reserved opcodes (R67, R234) -/

/-- The three runs of opcodes that R67 reserves. -/
abbrev isReservedOpcode (op : Nat) : Prop := (0x0A ≤ op ∧ op ≤ 0x0F) ∨ (0x14 ≤ op ∧ op ≤ 0x1F) ∨ 0x23 ≤ op

theorem opcodeByte_not_reserved (o : Opcode) : ¬isReservedOpcode (opcodeByte o).toNat := by
  cases o <;> decide

/-- A row's byte is in none of the reserved runs, so a byte of those runs names no row. -/
theorem decode_of_isReservedOpcode {w : CmdWord} (h : isReservedOpcode (wordField w 56 8).toNat) :
    decode w = .error .reservedOpcode := by
  rw [decode_reservedOpcode_iff, Option.eq_none_iff_forall_ne_some]
  intro o ho
  rw [← opcodeByte_of_opcodeOfByte ho] at h
  exact opcodeByte_not_reserved o h

/-- Settles O4: the opcode alone stops the decoder, whatever the other 56 bits are. -/
theorem reservedOpcodeIsIgnored : Obligations.ReservedOpcodeIsIgnored :=
  fun _ _ _ hp hop => (step_of_pending hp).trans (runWord_of_reservedOpcode (decode_of_isReservedOpcode hop) _)

/-! ## The ignored class (R232, R237) -/

/-- What a status tells of the command it ends: `t` ends in a response, and one of the ignored class stands for VALUE 0 and
no other change of `s`. -/
def State.heedsStatus (s t : State) : Prop :=
  ∃ (st : Status) (v : BitVec 32), t.trace.getLast? = some (.response (statusCode st) v) ∧
    (st.isIgnored → v = 0#32 ∧ t = s.answered (statusCode st) 0#32)

/-- The six codes of the class are those of no other status. -/
theorem isIgnored_of_statusCode_mem {st : Status}
    (h : statusCode st ∈ [0x01#8, 0x02#8, 0x03#8, 0x04#8, 0x09#8, 0x0A#8]) : st.isIgnored := by
  revert h
  cases st <;> decide

theorem State.heedsStatus_answered {s : State} {st : Status} {v : BitVec 32} (h : st.isIgnored → v = 0#32) :
    s.heedsStatus (s.answered (statusCode st) v) := by
  refine ⟨st, v, by simp, fun hst => ?_⟩
  obtain rfl := h hst
  exact ⟨rfl, rfl⟩

/-- Any change at all, if the status of the response is outside the class. -/
theorem State.heedsStatus_of_not_isIgnored {s t : State} {st : Status} {v : BitVec 32} (hst : ¬st.isIgnored)
    (h : t.trace.getLast? = some (.response (statusCode st) v)) : s.heedsStatus t :=
  ⟨st, v, h, fun hignored => absurd hignored hst⟩

theorem exec_heedsStatus {i : Instr} {s t : State} (h : exec i s = .next t) : s.heedsStatus t := by
  obtain ⟨st, v, hv, rfl⟩ | ⟨pin, count, -, -, -, rfl⟩ | ⟨val, -, rfl⟩ | ⟨-, -, -, st, v, hst, -, htrace⟩ := exec_cases h
  · exact State.heedsStatus_answered hv
  · exact State.heedsStatus_of_not_isIgnored (st := .ok) (by decide) List.getLast?_concat
  · exact State.heedsStatus_of_not_isIgnored (st := .ok) (by decide) List.getLast?_concat
  · exact State.heedsStatus_of_not_isIgnored (v := v) hst (by simp [htrace])

theorem runWord_heedsStatus {w : CmdWord} {s t : State} (h : runWord w s = .next t) : s.heedsStatus t := by
  obtain ⟨i, -, hrun⟩ | hrun | hrun := runWord_cases w s <;> rw [hrun] at h
  · exact exec_heedsStatus h
  · cases h; exact State.heedsStatus_answered (st := .badOp) fun _ => rfl
  · cases h; exact State.heedsStatus_answered (st := .rsvd) fun _ => rfl

/-- Settles O20: the last response of the step is the one whose status the word heeds. -/
theorem ignoredCommandsChangeNothing : Obligations.IgnoredCommandsChangeNothing := by
  intro s t w rest c v hp hstep hlast hc
  rw [step_of_pending hp] at hstep
  obtain ⟨st, v', hresponse, hignored⟩ := runWord_heedsStatus hstep
  cases hlast.symm.trans hresponse
  exact hignored (isIgnored_of_statusCode_mem hc)

/-! ## Steps without a trap (R230) -/

/-- Settles O12: the idle case of the step. -/
theorem idleEngineWaits : Obligations.IdleEngineWaits :=
  fun _ => step_of_idle

theorem runEvent_next (e : HostEvent) (s : State) : ∃ t, runEvent e s = .next t := by
  cases e with
  | command w => exact runWord_next w s
  | reset => exact ⟨_, rfl⟩
  | cutCommand w flushDelivered =>
    obtain ⟨u, hu⟩ := runWord_next w s
    exact ⟨_, runEvent_cutCommand hu flushDelivered⟩

/-- Settles O19: the engine waits, or takes an action of the host, and each has a next state. -/
theorem everyStepHasANextState : Obligations.EveryStepHasANextState := by
  intro s
  cases hp : s.pending with
  | nil => exact ⟨s, step_of_idle hp⟩
  | cons e rest => exact step_of_pending hp ▸ runEvent_next e _

/-! ## The not-initialised check (R236) -/

/-- The nine buffer commands begin with the check. -/
theorem exec_of_uninited {s : State} {i : Instr} (hs : s.inited = false)
    (hop : i.opcode ∈ [.setsel, .setrng, .setall, .clear, .shift, .rotate, .grad, .rdled, .rdbuf]) :
    exec i s = .next (s.answered 0x03#8 0#32) := by
  cases i
  case setsel | setrng | setall | clear | shift | rotate | grad | rdled | rdbuf =>
    exact congrArg Host.Outcome.next (State.whenInited_neg hs _)
  all_goals simp [Instr.opcode] at hop

theorem exec_setbrt (val : Byte) (s : State) :
    exec (.setbrt val) s = .next ({ s with bright := val }.answered 0x00#8 0#32) := rfl

/-- The other eight commands answer in every state, after a change of the tuple (INIT and SETBRT) or none, and never with
ST_NOINIT. -/
theorem exec_of_unchecked (s : State) {i : Instr}
    (hop : i.opcode ∈ [.nop, .init, .setbrt, .pack, .scale, .hsl2rgb, .encrng, .rdcfg]) :
    ∃ (u : State) (c : Byte) (v : BitVec 32), exec i s = .next (u.answered c v) ∧ u.trace = s.trace ∧ c ≠ 0x03#8 := by
  cases i
  case nop => exact ⟨s, _, _, exec_nop s, rfl, by decide⟩
  case init pin count =>
    by_cases hcount : count.toNat = 0 ∨ s.params.maxLeds.toNat < count.toNat
    · exact ⟨s, _, _, exec_init_badCount hcount pin, rfl, by decide⟩
    · rw [not_or, not_lt] at hcount
      obtain ⟨hne, hle⟩ := hcount
      exact ⟨_, _, _, exec_init (Nat.one_le_iff_ne_zero.2 hne) hle pin, rfl, by decide⟩
  case setbrt val => exact ⟨_, _, _, exec_setbrt val s, rfl, by decide⟩
  case pack r g b => exact ⟨s, _, _, exec_pack r g b s, rfl, by decide⟩
  case scale color => exact ⟨s, _, _, exec_scale color s, rfl, by decide⟩
  case hsl2rgb hue sat lum => exact ⟨s, _, _, exec_hsl2rgb hue sat lum s, rfl, by decide⟩
  case encrng first last8 =>
    by_cases hfirst : first = 0#16
    · subst hfirst
      exact ⟨s, _, _, exec_encrng_zero last8 s, rfl, by decide⟩
    · exact ⟨s, _, _, exec_encrng hfirst last8 s, rfl, by decide⟩
  case rdcfg reg =>
    cases hreg : cfgRead s reg with
    | some v => exact ⟨s, _, _, exec_rdcfg hreg, rfl, by decide⟩
    | none => exact ⟨s, _, _, exec_rdcfg_none hreg, rfl, by decide⟩
  all_goals simp [Instr.opcode] at hop

/-- Settles O25: nine commands have the check and eight have not. -/
theorem bufferCommandsNeedInit : Obligations.BufferCommandsNeedInit := by
  refine ⟨fun s i hs hop => exec_of_uninited hs hop, fun s i hop => ?_⟩
  obtain ⟨u, c, v, hexec, htrace, hc⟩ := exec_of_unchecked s hop
  exact ⟨_, c, v, hexec, by rw [State.answered_trace, htrace], hc⟩

end Sys2Proof.Machine
end

section
/-! Reset, between two commands and inside one (spec/70_reset_and_hazards.md R261, R262). -/

namespace Sys2Proof.Machine

/-! ## The views of the trace after reset -/

/-- An event on the sink port is an output (R50). -/
theorem isOutput_of_isFlush {e : TraceEvent} (h : isFlush e = true) : isOutput e = true := by
  cases e with
  | flush pin bytes => rfl
  | response status value => cases h
  | resetMark => cases h

/-- The mark of a reset is no output (log entry 4). -/
theorem State.applyReset_outputs (s : State) : s.applyReset.trace.filter isOutput = s.trace.filter isOutput := by
  simp [isOutput]

/-- R261: the physical strip is not blanked by reset. -/
theorem State.applyReset_stripContent (s : State) : s.applyReset.stripContent = s.stripContent := by
  have hflushes : s.applyReset.trace.filter isFlush = s.trace.filter isFlush := by simp [isFlush]
  rw [State.stripContent, State.stripContent, hflushes]

/-- A LEDCOUNT of 0 leaves no address in the buffer. -/
theorem State.applyReset_bytes (s : State) : s.applyReset.bytes = [] := by
  simp [State.bytes, State.bufLen, State.n]

theorem flushesSince_filter_isOutput (s u : State) : (flushesSince s u).filter isOutput = flushesSince s u :=
  List.filter_eq_self.2 fun _ he => isOutput_of_isFlush (List.mem_filter.1 he).2

/-- R262: of an abandoned command's outputs only a delivered flush is left. -/
theorem cutShort_outputs (s u : State) (flushDelivered : Bool) :
    (cutShort s u flushDelivered).trace.filter isOutput =
      s.trace.filter isOutput ++ (if flushDelivered = true then flushesSince s u else []) := by
  rw [cutShort, State.applyReset_outputs, List.filter_append]
  cases flushDelivered with
  | false => rfl
  | true => exact congrArg (s.trace.filter isOutput ++ ·) (flushesSince_filter_isOutput s u)

/-! ## The step that takes a reset -/

/-- Settles O13: the step applies reset, whose tuple is the one after power-up and whose mark is neither an output nor a
flush. -/
theorem resetRestoresTheResetState : Obligations.ResetRestoresTheResetState := by
  intro s rest hp
  have hstep : step s = .next (s.withPorts s.trace rest).applyReset := step_of_pending hp
  exact ⟨_, hstep, rfl, rfl, rfl, rfl, rfl, rfl, State.applyReset_bytes _, rfl, State.applyReset_outputs _,
    State.applyReset_stripContent (s.withPorts s.trace rest)⟩

/-- Settles O14: the whole command has a next state `u`, and the abandoned one leaves the reset state and, of what `u`
emitted, a delivered flush. -/
theorem resetCutsACommandShort : Obligations.ResetCutsACommandShort := by
  intro s w flushDelivered rest hp
  obtain ⟨u, hu⟩ := runWord_next w (s.withPorts s.trace rest)
  have hcut : step s = .next (cutShort (s.withPorts s.trace rest) u flushDelivered) :=
    (step_of_pending hp).trans (runEvent_cutCommand hu flushDelivered)
  have hwhole : step { s with pending := .command w :: rest } = .next u :=
    (step_of_pending (e := .command w) (rest := rest) rfl).trans hu
  exact ⟨_, u, hcut, hwhole, rfl, rfl, rfl, rfl, rfl, rfl, rfl, cutShort_outputs _ u flushDelivered⟩

end Sys2Proof.Machine
end
